-- ==== Sys2Proof/Word.lean ====
section
/-! DEFINITION. The fixed-width data of the block: channel beats, register words and stream bytes. -/

namespace Sys2Proof

/-- One 64-bit transfer on a channel (00_scope.md R13; 20_memory.md R36: the beat width is 64 bits for
every W). -/
abbrev Beat := BitVec 64

/-- A lane, the carry, a key, a constant or an output word. A W-bit value stands zero-extended in 64
bits, as it travels in the low W bits of a beat (20_memory.md R36, 30_encoding.md R72).
DESIGN CHOICE (log 15). -/
abbrev Word := BitVec 64

/-- One byte of a seed buffer or of a FILL stream. -/
abbrev Byte := BitVec 8

end Sys2Proof
end

