-- ==== Sys2Proof/Config.lean ====
section
/-! DEFINITION. The implementation parameters (00_scope.md R6), their constraints (R6, R7) and what the
spec leaves OPEN: the permutation function of the 8/16-bit instances and the product's constants. -/

namespace Sys2Proof

/-- The word widths the engine is defined for (00_scope.md R6, parameter `W`). -/
inductive Width where
  | w8
  | w16
  | w32
  | w64
deriving DecidableEq, Repr

/-- `W` as a number of bits. -/
def Width.bits : Width → Nat
  | .w8 => 8
  | .w16 => 16
  | .w32 => 32
  | .w64 => 64

/-- `W/8`. -/
def Width.bytes : Width → Nat
  | .w8 => 1
  | .w16 => 2
  | .w32 => 4
  | .w64 => 8

/-- `v` is a W-bit value. -/
def Width.fits (w : Width) (v : Word) : Bool :=
  decide (v.toNat < 2 ^ w.bits)

/-- The output permutation of an instance (40_engine.md R82, R83): the index pairing `(pa, pb, pc)`, or,
for W = 8 and W = 16 only, a function the spec leaves OPEN. `which` tells two such functions apart. -/
inductive Perm where
  | indices (pa pb pc : Nat)
  | openFn (which : Nat)
deriving DecidableEq, Repr

/-- How far FILL advances the state (42_serializer.md R107, R108). -/
inductive FillGranularity where
  | word
  | batch
deriving DecidableEq, Repr

/-- The configuration record of 00_scope.md R6. `PRIME_COUNT` is fixed and `SEED_LEN` is derived, so
neither is a field. -/
structure Config where
  /-- `W`. -/
  width : Width
  /-- `L`, the number of lanes. -/
  lag : Nat
  /-- `MULT`, the multiplier M. -/
  mult : Word
  /-- `PERM` or `PERM_FN`. -/
  perm : Perm
  /-- `BATCH_N`. -/
  batchN : Nat
  /-- `CARRY_MASK`. -/
  carryMask : Word
  /-- `CARRY_OR`. -/
  carryOr : Word
  /-- `OLD_SHIFT`. -/
  oldShift : Nat
  /-- `DEFAULT_LANE`. -/
  defaultLane : Word
  /-- `DEFAULT_CARRY`. -/
  defaultCarry : Word
  /-- `FILL_GRANULARITY`. -/
  fillGranularity : FillGranularity
deriving DecidableEq, Repr

namespace Config

/-- `PRIME_COUNT`, fixed (R6). -/
def primeCount : Nat := 6

/-- `SEED_LEN = 4 * W/8` (R6; 30_encoding.md R67). -/
def seedLen (cfg : Config) : Nat := 4 * cfg.width.bytes

/-- `SB = ceil(SEED_LEN / 8)` (30_encoding.md R62). -/
def seedBeats (cfg : Config) : Nat := (cfg.seedLen + 7) / 8

/-- `L` is in 2..16 (R6). -/
def lagLegal (cfg : Config) : Bool := decide (2 ≤ cfg.lag) && decide (cfg.lag ≤ 16)

/-- `7 <= M <= 2^W - 1` (R6, R7). -/
def multLegal (cfg : Config) : Bool := decide (7 ≤ cfg.mult.toNat) && cfg.width.fits cfg.mult

/-- Each index is in 0..L-1 (R6); W = 32 and W = 64 have the pairing `(L-1, L-2, 0)` of 40_engine.md R82,
and only W = 8 and W = 16 may have an OPEN function (R83). DEDUCED (log 4). -/
def permLegal (cfg : Config) : Bool :=
  match cfg.width, cfg.perm with
  | .w8, .openFn _ => true
  | .w16, .openFn _ => true
  | .w8, .indices pa pb pc => decide (pa < cfg.lag) && decide (pb < cfg.lag) && decide (pc < cfg.lag)
  | .w16, .indices pa pb pc => decide (pa < cfg.lag) && decide (pb < cfg.lag) && decide (pc < cfg.lag)
  | .w32, p => decide (p = .indices (cfg.lag - 1) (cfg.lag - 2) 0)
  | .w64, p => decide (p = .indices (cfg.lag - 1) (cfg.lag - 2) 0)

/-- `BATCH_N` is 4 or 6 (R6). -/
def batchLegal (cfg : Config) : Bool := decide (cfg.batchN = 4) || decide (cfg.batchN = 6)

/-- `CARRY_OR` is odd and W bits wide, `CARRY_MASK` is W bits wide and
`(CARRY_MASK | CARRY_OR) <= M - 2` (R6, R7). -/
def carryPatternLegal (cfg : Config) : Bool :=
  decide (cfg.carryOr.toNat % 2 = 1) && cfg.width.fits cfg.carryOr && cfg.width.fits cfg.carryMask
    && decide ((cfg.carryMask ||| cfg.carryOr).toNat + 2 ≤ cfg.mult.toNat)

/-- `2 <= OLD_SHIFT <= W - 1` (R6, R7). -/
def oldShiftLegal (cfg : Config) : Bool :=
  decide (2 ≤ cfg.oldShift) && decide (cfg.oldShift + 1 ≤ cfg.width.bits)

/-- `DEFAULT_LANE` is W bits wide, not 0 and not all-ones (R6, R7). -/
def defaultLaneLegal (cfg : Config) : Bool :=
  cfg.width.fits cfg.defaultLane && decide (cfg.defaultLane.toNat ≠ 0)
    && decide (cfg.defaultLane.toNat + 1 ≠ 2 ^ cfg.width.bits)

/-- `1 <= DEFAULT_CARRY <= M - 2` (R6, R7). -/
def defaultCarryLegal (cfg : Config) : Bool :=
  decide (1 ≤ cfg.defaultCarry.toNat) && decide (cfg.defaultCarry.toNat + 2 ≤ cfg.mult.toNat)

/-- The constraints of 00_scope.md R6 and R7. A configuration that breaks one "is not an instance of
this hardware". -/
def legal (cfg : Config) : Bool :=
  cfg.lagLegal && cfg.multLegal && cfg.permLegal && cfg.batchLegal && cfg.carryPatternLegal
    && cfg.oldShiftLegal && cfg.defaultLaneLegal && cfg.defaultCarryLegal

/-- `PERM_FN` of the 8/16-bit instances without an index pairing (40_engine.md R83): a total function of
the lanes before rotation and `hi`, about which nothing is known. A free value (log 3). -/
opaque permFn (which : Nat) (w : Width) (lanes : List Word) (hi : Word) : Word

end Config

/-- A configuration of an instance of this hardware: the record with the proof that it is legal. An
illegal record is refused by having no value of this type (00_scope.md R7, 60_exceptions.md R137). -/
structure LegalConfig where
  params : Config
  isLegal : params.legal = true
deriving DecidableEq, Repr

/-- The refusal of an illegal configuration (00_scope.md R7: "A model refuses it"). -/
def LegalConfig.ofConfig (cfg : Config) : Option LegalConfig :=
  if h : cfg.legal = true then some ⟨cfg, h⟩ else none

/-- The values of the product instance that 00_scope.md R6 marks OPEN. The defaults only show that legal
values exist; no definition uses them. -/
structure OpenParams where
  mult : Word := 7
  carryMask : Word := 0
  oldShift : Nat := 2
  defaultLane : Word := 1
  defaultCarry : Word := 1
deriving DecidableEq, Repr, Inhabited

/-- Mwc256XXA64 with given values for the OPEN parameters (00_scope.md R2 and R6, column "product
instance"). -/
def OpenParams.toConfig (p : OpenParams) : Config where
  width := .w64
  lag := 3
  mult := p.mult
  perm := .indices 2 1 0
  batchN := 4
  carryMask := p.carryMask
  carryOr := 5
  oldShift := p.oldShift
  defaultLane := p.defaultLane
  defaultCarry := p.defaultCarry
  fillGranularity := .word

/-- OPEN values that meet the constraints of R6 and R7. -/
structure LegalOpenParams where
  values : OpenParams := {}
  isLegal : values.toConfig.legal = true := by decide
deriving DecidableEq, Repr, Inhabited

namespace Config

/-- The OPEN values of the product instance. A free value with no body: all that is known of it is that it
meets the constraints (log 2). -/
opaque productOpen : LegalOpenParams

/-- The product instance Mwc256XXA64 (00_scope.md R2). -/
def product : LegalConfig := ⟨productOpen.values.toConfig, productOpen.isLegal⟩

end Config
end Sys2Proof
end

