-- ==== Sys2Proof/Machine/Operands.lean ====
section
/-! DEFINITION. Widths, byte order and operand forms: `wrap_W`, the payload word (PW), little-endian words
and bytes, bytes in beats (PB and DB). The byte order is decided here, once (20_memory.md R42). -/

namespace Sys2Proof.Machine

/-- `wrap_W(v) = v mod 2^W` (00_scope.md R8), held in a Word. -/
def wrap (w : Width) (v : Nat) : Word :=
  BitVec.ofNat 64 (v % 2 ^ w.bits)

/-- The value of a PW payload beat, `beat[W-1:0]`; bits `[63:W]` are ignored (30_encoding.md R66). -/
def payloadWord (w : Width) (b : Beat) : Word :=
  wrap w b.toNat

/-- Byte `i` of a value, `v[8i+7 : 8i]`. -/
def byteOf (v : BitVec 64) (i : Nat) : Byte :=
  v.extractLsb' (8 * i) 8

/-- The `n` low bytes of `v`, least significant first. -/
def littleEndianBytes (n : Nat) (v : BitVec 64) : List Byte :=
  (List.range n).map (byteOf v)

/-- The value of bytes, least significant first: `sum over k of byte[k] << (8*k)` (30_encoding.md R68). -/
def littleEndianValue : List Byte → Nat
  | [] => 0
  | b :: bs => b.toNat + 256 * littleEndianValue bs

/-- `LE(w)`, the W/8 bytes of an output word (42_serializer.md R105). -/
def wordBytes (w : Width) (v : Word) : List Byte :=
  littleEndianBytes w.bytes v

/-- `PackBytes`: byte i of the stream goes in beat `i div 8` at bits `[8*(i mod 8)+7 : 8*(i mod 8)]`, and
unused positions of the last beat are 0 (30_encoding.md R73; also R67 for SEED_BYTES payloads). -/
def packBytes (bytes : List Byte) : List Beat :=
  (List.range ((bytes.length + 7) / 8)).map fun j =>
    BitVec.ofNat 64 (littleEndianValue ((bytes.drop (8 * j)).take 8))

/-- The bytes of beats, in stream order (30_encoding.md R67). -/
def unpackBytes (beats : List Beat) : List Byte :=
  beats.flatMap (littleEndianBytes 8)

/-- `seedword[j]` of a seed buffer (30_encoding.md R68). -/
def seedWord (w : Width) (bytes : List Byte) (j : Nat) : Word :=
  wrap w (littleEndianValue ((bytes.drop (j * w.bytes)).take w.bytes))

end Sys2Proof.Machine
end

