-- ==== Sys2Proof/Syntax.lean ====
section
/-! DEFINITION. The command set (30_encoding.md R62): opcodes, and commands with their operands. -/

namespace Sys2Proof

/-- The twelve defined opcodes (30_encoding.md R62). -/
inductive Opcode where
  | step
  | batch
  | nextU32
  | nextU64
  | fill
  | tryFill
  | seedKeys
  | seedBytes
  | loadState
  | storeState
  | readStatus
  | readConfig
deriving DecidableEq, Repr

/-- Every opcode, in the order of the opcode map. -/
def Opcode.all : List Opcode :=
  [.step, .batch, .nextU32, .nextU64, .fill, .tryFill, .seedKeys, .seedBytes, .loadState, .storeState,
    .readStatus, .readConfig]

/-- One command, header and payload together, one constructor per row of the opcode table. The operands
are the ones 30_encoding.md R76 writes. -/
inductive Instr where
  /-- STEP (40_engine.md R90). -/
  | step
  /-- BATCH (R91). -/
  | batch
  /-- NEXT_U32 (42_serializer.md R111). -/
  | nextU32
  /-- NEXT_U64 (R112). -/
  | nextU64
  /-- FILL of `len` bytes (R106; 30_encoding.md R60). -/
  | fill (len : BitVec 32)
  /-- TRY_FILL of `len` bytes (R109). -/
  | tryFill (len : BitVec 32)
  /-- SEED_KEYS with two W-bit keys (41_seeding.md R96). -/
  | seedKeys (k1 k2 : Word)
  /-- SEED_BYTES with SEED_LEN seed bytes, byte 0 first (R98). -/
  | seedBytes (bytes : List Byte)
  /-- LOAD_STATE with L lanes, `x[0]` first, and the carry (43_state_io.md R115). -/
  | loadState (lanes : List Word) (carry : Word)
  /-- STORE_STATE (R117). -/
  | storeState
  /-- READ_STATUS (R119). -/
  | readStatus
  /-- READ_CONFIG (R120). -/
  | readConfig
deriving DecidableEq, Repr

/-- The opcode of a command. -/
def Instr.opcode : Instr → Opcode
  | .step => .step
  | .batch => .batch
  | .nextU32 => .nextU32
  | .nextU64 => .nextU64
  | .fill _ => .fill
  | .tryFill _ => .tryFill
  | .seedKeys _ _ => .seedKeys
  | .seedBytes _ => .seedBytes
  | .loadState _ _ => .loadState
  | .storeState => .storeState
  | .readStatus => .readStatus
  | .readConfig => .readConfig

end Sys2Proof
end

