-- ==== Sys2Proof/WellFormed.lean ====
section
/-! DEFINITION. Which commands an instance has: operand counts and ranges (30_encoding.md R76) and the lag
that the seed commands need (R61). -/

namespace Sys2Proof

/-- The command exists on an instance with configuration `cfg` and its operands are in range
(30_encoding.md R61, R76): keys, lanes and carry below `2^W`, exactly SEED_LEN seed bytes, exactly L
lanes, seed commands only when L = 3. -/
def Instr.wellFormed (cfg : Config) : Instr → Bool
  | .step => true
  | .batch => true
  | .nextU32 => true
  | .nextU64 => true
  | .fill _ => true
  | .tryFill _ => true
  | .seedKeys k1 k2 => decide (cfg.lag = 3) && cfg.width.fits k1 && cfg.width.fits k2
  | .seedBytes bytes => decide (cfg.lag = 3) && decide (bytes.length = cfg.seedLen)
  | .loadState lanes carry =>
    decide (lanes.length = cfg.lag) && lanes.all cfg.width.fits && cfg.width.fits carry
  | .storeState => true
  | .readStatus => true
  | .readConfig => true

end Sys2Proof
end

