-- ==== Sys2Proof/Decode.lean ====
section
/-! DEFINITION. Decoding of command beats (30_encoding.md R59 to R69), total and rejecting by name, then
the encoder (R77). -/

namespace Sys2Proof

/-- The opcode values (30_encoding.md R62). -/
def Opcode.code : Opcode → BitVec 8
  | .step => 0x01
  | .batch => 0x02
  | .nextU32 => 0x03
  | .nextU64 => 0x04
  | .fill => 0x05
  | .tryFill => 0x06
  | .seedKeys => 0x10
  | .seedBytes => 0x11
  | .loadState => 0x20
  | .storeState => 0x21
  | .readStatus => 0x30
  | .readConfig => 0x31

/-- The opcode an OPC value stands for; none for the reserved values (30_encoding.md R63). -/
def Opcode.ofCode (c : BitVec 8) : Option Opcode :=
  Opcode.all.find? fun o => o.code == c

/-- Field OPC, bits 7:0 (30_encoding.md R59). -/
def headerOpc (h : Beat) : BitVec 8 := h.extractLsb' 0 8

/-- Field RSV, bits 31:8. -/
def headerRsv (h : Beat) : BitVec 24 := h.extractLsb' 8 24

/-- Field LEN, bits 63:32, an unsigned byte count (30_encoding.md R60). -/
def headerLen (h : Beat) : BitVec 32 := h.extractLsb' 32 32

/-- Whether LEN is an operand of the opcode; it must be 0 for every other (30_encoding.md R59). -/
def Opcode.takesLen : Opcode → Bool
  | .fill => true
  | .tryFill => true
  | _ => false

/-- Whether the opcode exists only when L = 3 (30_encoding.md R61). -/
def Opcode.seeds : Opcode → Bool
  | .seedKeys => true
  | .seedBytes => true
  | _ => false

/-- Why beats are not a command. -/
inductive DecodeError where
  /-- No beat at all. -/
  | noHeader
  /-- OPC is not in the opcode map (30_encoding.md R63). -/
  | reservedOpcode (opc : BitVec 8)
  /-- RSV is not 0 (R63). -/
  | reservedBitsSet (opc : Opcode)
  /-- LEN is not 0 on an opcode without that operand (R63). -/
  | lengthNotZero (opc : Opcode)
  /-- A seed opcode on an instance with L other than 3 (R63). -/
  | seedNeedsLagThree (opc : Opcode)
  /-- The header is not followed by exactly the payload beats it requires (R65). -/
  | payloadCount (needed got : Nat)
deriving DecidableEq, Repr

/-- The opcode of a header beat, or why the beat is illegal: `LegalHeader(h)` of 30_encoding.md R61 holds
exactly when there is an opcode (R63 lists the illegal ones). -/
def decodeHeader (cfg : Config) (h : Beat) : Except DecodeError Opcode :=
  match Opcode.ofCode (headerOpc h) with
  | none => .error (.reservedOpcode (headerOpc h))
  | some opc =>
    if headerRsv h ≠ 0 then .error (.reservedBitsSet opc)
    else if !opc.takesLen && headerLen h != 0 then .error (.lengthNotZero opc)
    else if opc.seeds && cfg.lag != 3 then .error (.seedNeedsLagThree opc)
    else .ok opc

/-- `P`, the number of payload beats after the header (30_encoding.md R62). -/
def Opcode.payloadBeats (cfg : Config) : Opcode → Nat
  | .seedKeys => 2
  | .seedBytes => cfg.seedBeats
  | .loadState => cfg.lag + 1
  | _ => 0

/-- `NDATA`, the number of data beats of an OK response (30_encoding.md R62). -/
def Opcode.dataBeats (cfg : Config) (len : BitVec 32) : Opcode → Nat
  | .step => 1
  | .batch => cfg.batchN
  | .nextU32 => 1
  | .nextU64 => 1
  | .fill => (len.toNat + 7) / 8
  | .tryFill => (len.toNat + 7) / 8
  | .seedKeys => 0
  | .seedBytes => 0
  | .loadState => 0
  | .storeState => cfg.lag + 1
  | .readStatus => 1
  | .readConfig => 6

/-- The command of an opcode, a LEN operand and payload beats (30_encoding.md R60, R66, R67). The payload
is never checked: bits a payload word does not use are ignored. A beat that is not there reads as 0
(log 16). -/
def Opcode.withOperands (cfg : Config) (opc : Opcode) (len : BitVec 32) (payload : List Beat) : Instr :=
  match opc with
  | .step => .step
  | .batch => .batch
  | .nextU32 => .nextU32
  | .nextU64 => .nextU64
  | .fill => .fill len
  | .tryFill => .tryFill len
  | .seedKeys =>
    .seedKeys (Machine.payloadWord cfg.width (payload.getD 0 0))
      (Machine.payloadWord cfg.width (payload.getD 1 0))
  | .seedBytes => .seedBytes ((Machine.unpackBytes payload).take cfg.seedLen)
  | .loadState =>
    .loadState ((List.range cfg.lag).map fun i => Machine.payloadWord cfg.width (payload.getD i 0))
      (Machine.payloadWord cfg.width (payload.getD cfg.lag 0))
  | .storeState => .storeState
  | .readStatus => .readStatus
  | .readConfig => .readConfig

/-- The command that a list of beats is, header first, or the reason it is none. -/
def decode (cfg : Config) : List Beat → Except DecodeError Instr
  | [] => .error .noHeader
  | h :: payload =>
    match decodeHeader cfg h with
    | .error e => .error e
    | .ok opc =>
      if payload.length = opc.payloadBeats cfg then .ok (opc.withOperands cfg (headerLen h) payload)
      else .error (.payloadCount (opc.payloadBeats cfg) payload.length)

/-- The header beat of an opcode: `zext_64(OPC) | (zext_64(len) << 32)` (30_encoding.md R77). -/
def headerBeat (opc : Opcode) (len : BitVec 32) : Beat :=
  len ++ (0 : BitVec 24) ++ opc.code

/-- The LEN field of a command: its operand, or 0 (30_encoding.md R77). -/
def Instr.len : Instr → BitVec 32
  | .fill len => len
  | .tryFill len => len
  | _ => 0

/-- The payload beats of a command (30_encoding.md R77): words zero-extended in operand order, seed bytes
packed with unused high bytes 0. -/
def Instr.payload : Instr → List Beat
  | .seedKeys k1 k2 => [k1, k2]
  | .seedBytes bytes => Machine.packBytes bytes
  | .loadState lanes carry => lanes ++ [carry]
  | _ => []

/-- The beats of a command (30_encoding.md R77). -/
def encode (i : Instr) : List Beat :=
  headerBeat i.opcode i.len :: i.payload

/-- The beats of an opcode-table word: beat 0 is bits 63:0, beat k bits `64k+63 : 64k`, bits at or above
`nbits` read 0 (the two factors make `2^nbits`), and there are as many beats as the header requires (one when
it is illegal). -/
def tableBeats (cfg : Config) (nbits w : Nat) : List Beat :=
  let v := w % (2 ^ (nbits % 8) * 256 ^ (nbits / 8))
  let h : Beat := BitVec.ofNat 64 v
  match decodeHeader cfg h with
  | .error _ => [h]
  | .ok opc => h :: (List.range (opc.payloadBeats cfg)).map fun k => BitVec.ofNat 64 (v / (2 ^ 64) ^ (k + 1))

/-- The command an opcode-table word is on the product instance, whose W = 64 and L = 3 fix the payload
counts (log 20). -/
def decodeTableWord (nbits w : Nat) : Option Instr :=
  match decode Config.product.params (tableBeats Config.product.params nbits w) with
  | .ok i => some i
  | .error _ => none

end Sys2Proof
end

