-- ==== Sys2Proof/Machine/State.lean ====
section
/-! DEFINITION. The state of one instance (10_state.md R31) with the host's moves beside it, what a step can
stop with, and the state after reset. -/

namespace Sys2Proof.Machine

/-- The generator state: the lane-state register file, newest lane first, and the carry register
(10_state.md R16, R18). -/
structure Gen where
  /-- `x[0] .. x[L-1]`. -/
  lanes : List Word
  /-- `c`. -/
  carry : Word
deriving DecidableEq, Repr

/-- The decoder state DEC (10_state.md R25). -/
inductive Dec where
  /-- The next beat is a header. -/
  | idle
  /-- A legal header with opcode `opc` has been taken, `need` payload beats are owed and `buf` holds those
  taken so far. -/
  | collect (opc : Opcode) (need : Nat) (buf : List Beat)
deriving DecidableEq, Repr

/-- The sequencer state SEQ (10_state.md R26, 41_seeding.md R103). -/
inductive Seq where
  | idle
  /-- PRIME(k): `k` priming steps remain of the seed command `opc`. -/
  | prime (k : Nat) (opc : Opcode)
deriving DecidableEq, Repr

/-- A response beat with its `rsp_last` (20_memory.md R35, 30_encoding.md R74). -/
structure RspBeat where
  data : Beat
  last : Bool
deriving DecidableEq, Repr

/-- Status codes (30_encoding.md R71). -/
inductive StatusCode where
  | ok
  | errIllegal
  | errFaulted
  | errUnseeded
deriving DecidableEq, Repr

/-- A move of the host (20_memory.md R39). -/
inductive HostMove where
  /-- Offer a command beat and keep it offered until it moves. -/
  | send (beat : Beat)
  /-- Be ready for a response beat at one edge. -/
  | accept
  /-- Assert `rst` at one edge. -/
  | reset
deriving DecidableEq, Repr

/-- One instance: the tuple of 10_state.md R31 and SEQ, the configuration, and the two channels. -/
structure State where
  /-- The parameters of the instance; fixed when it is built (10_state.md R30, R32; log 1). -/
  config : LegalConfig
  /-- The lanes and the carry, absent while they hold no value (10_state.md R34; log 5). -/
  gen : Option Gen
  /-- SEEDED (10_state.md R22). -/
  seeded : Bool
  /-- FAULT (10_state.md R23). -/
  fault : Bool
  /-- DEC (10_state.md R25). -/
  dec : Dec
  /-- SEQ (10_state.md R26). -/
  seq : Seq
  /-- RQ: response beats produced and not yet accepted, in production order (10_state.md R27). -/
  rq : List RspBeat
  /-- The host's moves still to come, first one first (the model's own field; log 7). -/
  script : List HostMove
  /-- `CB`: the command beats that have moved, in order (20_memory.md R38; log 23). -/
  sent : List Beat
  /-- `RB`: the response beats that have moved, in order (20_memory.md R38; log 23). -/
  received : List RspBeat
deriving DecidableEq, Repr

/-- The configuration record of the instance. -/
@[simp] abbrev State.cfg (s : State) : Config := s.config.params

/-- Why the machine has no step. -/
inductive Fault where
  /-- Raised by the step when the host has no move left and the sequencer is idle: the engine "has no move
  in the model" (20_memory.md R39, R44; 60_exceptions.md R137 "stuck"). Safe: nothing follows from a
  state the engine does not leave (log 8). -/
  | awaitingHost
deriving DecidableEq, Repr

/-- Why an instruction has no meaning. -/
inductive Refusal where
  /-- Raised by exec for an instruction without a meaning. Safe. No arm raises it now. -/
  | notModelled (mnemonic : String)
deriving DecidableEq, Repr

/-- An instance right after reset (10_state.md R31, 70_reset_and_hazards.md R139), with nothing offered,
sent or received. The spec's reset value of the lanes and the carry is "no value" (R34). -/
def State.ofConfig (config : LegalConfig) : State where
  config := config
  gen := none
  seeded := false
  fault := false
  dec := .idle
  seq := .idle
  rq := []
  script := []
  sent := []
  received := []

/-- The product instance right after reset. -/
def State.reset : State := State.ofConfig Config.product

end Sys2Proof.Machine
end

