-- ==== Sys2Proof/Machine/Flags.lean ====
section
/-! DEFINITION. The flag computations: the carry-out of the step, the SEEDED check and the STATUS register. -/

namespace Sys2Proof.Machine

/-- The carry-out bit `b` of `low + c`: 1 exactly when the sum reaches `2^W` (40_engine.md R84). -/
def carryOut (w : Width) (low c : Word) : Bool :=
  decide (2 ^ w.bits ≤ low.toNat + c.toNat)

/-- The lanes and the carry as a command may read them: only while SEEDED is 1 (10_state.md R22, R34). A
state no run reaches, SEEDED = 1 with absent lanes, has nothing to read either (log 6). -/
def State.liveGen (s : State) : Option Gen :=
  if s.seeded then s.gen else none

/-- The STATUS register (10_state.md R28): SEEDED in bit 0, FAULT in bit 1, zeros above. -/
def statusRegister (s : State) : Beat :=
  (0 : BitVec 62) ++ BitVec.ofBool s.fault ++ BitVec.ofBool s.seeded

end Sys2Proof.Machine
end

