-- ==== Sys2Proof/Machine/Ops.lean ====
section
/-! DEFINITION. The shared operations: `Respond`, the three errors, the SEEDED check in front of a
command, reset and the response channel. The spec's exceptions are error responses (60_exceptions.md
R128): there is no trap entry and no return. -/

namespace Sys2Proof.Machine

/-- The values of the status codes (30_encoding.md R71). -/
def StatusCode.code : StatusCode → BitVec 8
  | .ok => 0x00
  | .errIllegal => 0x01
  | .errFaulted => 0x02
  | .errUnseeded => 0x03

/-- The status beat (30_encoding.md R70, R75): NDATA in 63:32, zeros, OPCE in 15:8, STATUS in 7:0. -/
def statusBeat (code : StatusCode) (opce : BitVec 8) (ndata : Nat) : Beat :=
  BitVec.ofNat 32 ndata ++ (0 : BitVec 16) ++ opce ++ code.code

/-- Beats of one response with `rsp_last` on the last one only (30_encoding.md R74). -/
def markLast : List Beat → List RspBeat
  | [] => []
  | [b] => [⟨b, true⟩]
  | b :: bs => ⟨b, false⟩ :: markLast bs

/-- One response: the status beat, then the data beats (30_encoding.md R75). -/
def responseBeats (code : StatusCode) (opce : BitVec 8) (data : List Beat) : List RspBeat :=
  markLast (statusBeat code opce data.length :: data)

/-- `Respond(status, opc, data)`: append one response to RQ (00_scope.md R10, 30_encoding.md R75). -/
def State.respond (s : State) (code : StatusCode) (opce : BitVec 8) (data : List Beat) : State :=
  { s with rq := s.rq ++ responseBeats code opce data }

/-- ERR_ILLEGAL (60_exceptions.md R123): set FAULT, answer, change nothing else. -/
def State.raiseIllegal (s : State) (opce : BitVec 8) : State :=
  { s with fault := true }.respond .errIllegal opce []

/-- ERR_FAULTED (60_exceptions.md R124): answer, change nothing. -/
def State.raiseFaulted (s : State) (opce : BitVec 8) : State :=
  s.respond .errFaulted opce []

/-- ERR_UNSEEDED (60_exceptions.md R125): answer, change nothing. -/
def State.raiseUnseeded (s : State) (opc : Opcode) : State :=
  s.respond .errUnseeded opc.code []

/-- A command that needs a seeded state (60_exceptions.md R126, priorities 4 and 5): ERR_UNSEEDED, or the
generator state and the data beats that `f` computes from the lanes and the carry. -/
def whenSeeded (opc : Opcode) (f : Gen → Gen × List Beat) (s : State) : State :=
  match s.liveGen with
  | none => s.raiseUnseeded opc
  | some g => { s with gen := some (f g).1 }.respond .ok opc.code (f g).2

/-- `Reset()` (70_reset_and_hazards.md R139): flags, DEC, SEQ and RQ cleared, lanes and carry without
value. The configuration and the beats that have already moved stay (R143). -/
def State.resetEngine (s : State) : State :=
  { s with gen := none, seeded := false, fault := false, dec := .idle, seq := .idle, rq := [] }

/-- The host is ready for a response beat: the oldest one of RQ moves; with RQ empty none is offered and
nothing moves (20_memory.md R37). -/
def State.acceptBeat (s : State) : State :=
  match s.rq with
  | [] => s
  | b :: rest => { s with rq := rest, received := s.received ++ [b] }

end Sys2Proof.Machine
end

