-- ==== Sys2Proof/Machine/Engine.lean ====
section
/-! DEFINITION. The multiply-accumulate step (40_engine.md R78 to R87) and its commands STEP and BATCH. -/

namespace Sys2Proof.Machine

/-- `x[i]` (00_scope.md R9). -/
def Gen.lane (g : Gen) (i : Nat) : Word := g.lanes.getD i 0

/-- The exact product `t = x[L-1] * M` (40_engine.md R81). -/
def product (cfg : Config) (g : Gen) : Nat :=
  (g.lane (cfg.lag - 1)).toNat * cfg.mult.toNat

/-- `low = t mod 2^W` (40_engine.md R81). -/
def productLow (cfg : Config) (g : Gen) : Word := wrap cfg.width (product cfg g)

/-- `hi = t div 2^W` (40_engine.md R81). -/
def productHigh (cfg : Config) (g : Gen) : Word :=
  wrap cfg.width (product cfg g / 2 ^ cfg.width.bits)

/-- The output permutation network (40_engine.md R82; R83 where it is OPEN), on the lanes before
rotation. -/
def permute (cfg : Config) (g : Gen) (hi : Word) : Word :=
  match cfg.perm with
  | .indices pa pb pc =>
    wrap cfg.width ((g.lane pa ^^^ g.lane pb).toNat + (g.lane pc ^^^ hi).toNat)
  | .openFn which => wrap cfg.width (Config.permFn which cfg.width g.lanes hi).toNat

/-- What one step gives: the new lanes and carry, and the output word. -/
structure StepResult where
  gen : Gen
  word : Word
deriving DecidableEq, Repr

/-- `StepFn` (40_engine.md R80): output from the lanes before rotation, carry add (R84), lane rotation
(R85), carry update (R86). -/
def stepFn (cfg : Config) (g : Gen) : StepResult :=
  let low := productLow cfg g
  let hi := productHigh cfg g
  let b := carryOut cfg.width low g.carry
  { gen :=
      { lanes := wrap cfg.width (low.toNat + g.carry.toNat) :: g.lanes.take (cfg.lag - 1)
        carry := wrap cfg.width (hi.toNat + b.toNat) }
    word := permute cfg g hi }

/-- `Step^k` (00_scope.md R11): the state after `k` consecutive steps and their `k` words, first one
first. -/
def runSteps (cfg : Config) : Nat → Gen → Gen × List Word
  | 0, g => (g, [])
  | k + 1, g =>
    let r := stepFn cfg g
    let rest := runSteps cfg k r.gen
    (rest.1, r.word :: rest.2)

/-- STEP (40_engine.md R90). -/
def execStep (s : State) : Host.Outcome State Fault Refusal :=
  .next (whenSeeded .step (fun g => ((stepFn s.cfg g).gen, [(stepFn s.cfg g).word])) s)

/-- BATCH (40_engine.md R91): BATCH_N steps, the lanes and the carry written once. -/
def execBatch (s : State) : Host.Outcome State Fault Refusal :=
  .next (whenSeeded .batch (runSteps s.cfg s.cfg.batchN) s)

end Sys2Proof.Machine
end

