-- ==== Sys2Proof/Machine/Seeding.lean ====
section
/-! DEFINITION. The seeding state machine (41_seeding.md R94 to R103): the two loads, the sequencer's
transitions, and SEED_KEYS and SEED_BYTES. -/

namespace Sys2Proof.Machine

/-- The load of SEED_KEYS (41_seeding.md R96, R97). -/
def loadKeys (cfg : Config) (k1 k2 : Word) : Gen where
  lanes := [payloadWord cfg.width k1, payloadWord cfg.width k2, cfg.defaultLane]
  carry := cfg.defaultCarry

/-- The seeded carry `(w[0] & CARRY_MASK) | CARRY_OR` (41_seeding.md R99). -/
def seedCarry (cfg : Config) (w0 : Word) : Word :=
  (w0 &&& cfg.carryMask) ||| cfg.carryOr

/-- The seeded oldest lane `wrap_W(w[3] << OLD_SHIFT) | 1` (41_seeding.md R101). -/
def seedOldest (cfg : Config) (w3 : Word) : Word :=
  wrap cfg.width (w3.toNat * 2 ^ cfg.oldShift) ||| 1

/-- The load of SEED_BYTES (41_seeding.md R98, R100). -/
def loadSeed (cfg : Config) (bytes : List Byte) : Gen where
  lanes :=
    [seedWord cfg.width bytes 1, seedWord cfg.width bytes 2,
      seedOldest cfg (seedWord cfg.width bytes 3)]
  carry := seedCarry cfg (seedWord cfg.width bytes 0)

/-- First row of the sequencer's table (41_seeding.md R103): the load, then PRIME(6). -/
def beginPriming (opc : Opcode) (g : Gen) (s : State) : State :=
  { s with gen := some g, seq := .prime Config.primeCount opc }

/-- The other rows (41_seeding.md R103): one discarded step; after the last one SEEDED is set, the OK
response produced and SEQ idle. -/
def seqTick (s : State) : State :=
  match s.seq with
  | .idle => s
  | .prime k opc =>
    let primed := { s with gen := s.gen.map fun g => (stepFn s.cfg g).gen }
    if k ≤ 1 then { primed with seeded := true, seq := .idle }.respond .ok opc.code []
    else { primed with seq := .prime (k - 1) opc }

/-- `n` transitions of the sequencer. -/
def seqRun : Nat → State → State
  | 0, s => s
  | n + 1, s => seqRun n (seqTick s)

/-- A seed command as the one atomic transition of 20_memory.md R52: the whole table of 41_seeding.md R103.
On an instance with L other than 3 the command does not exist and its header is illegal
(30_encoding.md R61, R63; log 14). -/
def seedWith (opc : Opcode) (g : Gen) (s : State) : State :=
  if s.cfg.lag = 3 then seqRun Config.primeCount (beginPriming opc g s)
  else s.raiseIllegal opc.code

/-- SEED_KEYS (41_seeding.md R96). -/
def execSeedKeys (k1 k2 : Word) (s : State) : Host.Outcome State Fault Refusal :=
  .next (seedWith .seedKeys (loadKeys s.cfg k1 k2) s)

/-- SEED_BYTES (41_seeding.md R98). -/
def execSeedBytes (bytes : List Byte) (s : State) : Host.Outcome State Fault Refusal :=
  .next (seedWith .seedBytes (loadSeed s.cfg bytes) s)

end Sys2Proof.Machine
end

