-- ==== Sys2Proof/Machine/Serializer.lean ====
section
/-! DEFINITION. The byte-stream serializer and the word accessors (42_serializer.md): FILL, TRY_FILL,
NEXT_U32 and NEXT_U64. -/

namespace Sys2Proof.Machine

/-- `ceil(a / b)`. -/
def ceilDiv (a b : Nat) : Nat := (a + (b - 1)) / b

/-- `StepsFor(LEN)` (42_serializer.md R107 for WORD, R108 for BATCH). -/
def stepsFor (cfg : Config) (len : Nat) : Nat :=
  match cfg.fillGranularity with
  | .word => ceilDiv len cfg.width.bytes
  | .batch => cfg.batchN * ceilDiv len (cfg.batchN * cfg.width.bytes)

/-- The byte stream of words (42_serializer.md R105). -/
def streamBytes (w : Width) (words : List Word) : List Byte :=
  words.flatMap (wordBytes w)

/-- The state after a fill of `len` bytes, and its data beats (42_serializer.md R106). -/
def fillBytes (cfg : Config) (len : Nat) (g : Gen) : Gen × List Beat :=
  let r := runSteps cfg (stepsFor cfg len) g
  (r.1, packBytes ((streamBytes cfg.width r.2).take len))

/-- Words concatenated, the first one in the high bits: `v <- (v << W) | r` (42_serializer.md R110). -/
def concatWords (w : Width) (words : List Word) : Beat :=
  words.foldl (fun v r => (v <<< w.bits) ||| r) 0

/-- `Compose(R)` (42_serializer.md R110): the low R bits of one word, or R/W words concatenated. -/
def compose (cfg : Config) (r : Nat) (g : Gen) : Gen × Beat :=
  if r ≤ cfg.width.bits then
    ((stepFn cfg g).gen, BitVec.ofNat 64 ((stepFn cfg g).word.toNat % 2 ^ r))
  else
    let run := runSteps cfg (r / cfg.width.bits) g
    (run.1, concatWords cfg.width run.2)

/-- FILL (42_serializer.md R106). -/
def execFill (len : BitVec 32) (s : State) : Host.Outcome State Fault Refusal :=
  .next (whenSeeded .fill (fillBytes s.cfg len.toNat) s)

/-- TRY_FILL (42_serializer.md R109): FILL with its own opcode echoed. -/
def execTryFill (len : BitVec 32) (s : State) : Host.Outcome State Fault Refusal :=
  .next (whenSeeded .tryFill (fillBytes s.cfg len.toNat) s)

/-- NEXT_U32 (42_serializer.md R111). -/
def execNextU32 (s : State) : Host.Outcome State Fault Refusal :=
  .next (whenSeeded .nextU32 (fun g => ((compose s.cfg 32 g).1, [(compose s.cfg 32 g).2])) s)

/-- NEXT_U64 (42_serializer.md R112). -/
def execNextU64 (s : State) : Host.Outcome State Fault Refusal :=
  .next (whenSeeded .nextU64 (fun g => ((compose s.cfg 64 g).1, [(compose s.cfg 64 g).2])) s)

end Sys2Proof.Machine
end

