-- ==== Sys2Proof/Machine/StateIo.lean ====
section
/-! DEFINITION. State transfer and status (43_state_io.md): LOAD_STATE, STORE_STATE, READ_STATUS and
READ_CONFIG. -/

namespace Sys2Proof.Machine

/-- The state LOAD_STATE writes (43_state_io.md R115): `x[i] <- PW[i][W-1:0]` for i in 0..L-1 and the
carry, unchecked (R116). -/
def loadGen (cfg : Config) (lanes : List Word) (carry : Word) : Gen where
  lanes := (List.range cfg.lag).map fun i => payloadWord cfg.width (lanes.getD i 0)
  carry := payloadWord cfg.width carry

/-- The beats STORE_STATE sends (43_state_io.md R117): `x[0] .. x[L-1]`, then `c`. -/
def storeBeats (g : Gen) : List Beat := g.lanes ++ [g.carry]

/-- CONFIG bit 48 (10_state.md R29). -/
def granularityBit : FillGranularity → BitVec 1
  | .word => 0
  | .batch => 1

/-- CONFIG beat 3 (10_state.md R29): pa, pb, pc, or `0xFFFFFF` for a permutation that is no index
pairing. -/
def permBeat : Perm → Beat
  | .indices pa pb pc => (0 : BitVec 40) ++ BitVec.ofNat 8 pc ++ BitVec.ofNat 8 pb ++ BitVec.ofNat 8 pa
  | .openFn _ => 0xFFFFFF

/-- The CONFIG block (10_state.md R29). -/
def configBlock (cfg : Config) : List Beat :=
  [ (0 : BitVec 15) ++ granularityBit cfg.fillGranularity ++ cfg.carryOr.setWidth 8
      ++ BitVec.ofNat 8 cfg.oldShift ++ BitVec.ofNat 8 Config.primeCount ++ BitVec.ofNat 8 cfg.batchN
      ++ BitVec.ofNat 8 cfg.lag ++ BitVec.ofNat 8 cfg.width.bits,
    cfg.mult, cfg.carryMask, permBeat cfg.perm, cfg.defaultLane, cfg.defaultCarry ]

/-- LOAD_STATE (43_state_io.md R115). -/
def execLoadState (lanes : List Word) (carry : Word) (s : State) : Host.Outcome State Fault Refusal :=
  .next ({ s with gen := some (loadGen s.cfg lanes carry), seeded := true }.respond .ok
    Opcode.loadState.code [])

/-- STORE_STATE (43_state_io.md R117). -/
def execStoreState (s : State) : Host.Outcome State Fault Refusal :=
  .next (whenSeeded .storeState (fun g => (g, storeBeats g)) s)

/-- READ_STATUS (43_state_io.md R119). -/
def execReadStatus (s : State) : Host.Outcome State Fault Refusal :=
  .next (s.respond .ok Opcode.readStatus.code [statusRegister s])

/-- READ_CONFIG (43_state_io.md R120). -/
def execReadConfig (s : State) : Host.Outcome State Fault Refusal :=
  .next (s.respond .ok Opcode.readConfig.code (configBlock s.cfg))

end Sys2Proof.Machine
end

