-- ==== Sys2Proof/Machine/Dispatch.lean ====
section
/-! DEFINITION. exec: the meaning of each command, one arm each (60_exceptions.md R126, priorities 4 and 5). -/

namespace Sys2Proof.Machine

/-- `Perform(opc)` of 60_exceptions.md R126 with the SEEDED check in front of it. The checks that depend
on the beat (FAULT, header legality, payload count) come before, in Machine/OnBeat.lean. -/
def exec (i : Instr) (s : State) : Host.Outcome State Fault Refusal :=
  match i with
  | .step => Sys2Proof.Machine.execStep s
  | .batch => Sys2Proof.Machine.execBatch s
  | .nextU32 => Sys2Proof.Machine.execNextU32 s
  | .nextU64 => Sys2Proof.Machine.execNextU64 s
  | .fill len => Sys2Proof.Machine.execFill len s
  | .tryFill len => Sys2Proof.Machine.execTryFill len s
  | .seedKeys k1 k2 => Sys2Proof.Machine.execSeedKeys k1 k2 s
  | .seedBytes bytes => Sys2Proof.Machine.execSeedBytes bytes s
  | .loadState lanes carry => Sys2Proof.Machine.execLoadState lanes carry s
  | .storeState => Sys2Proof.Machine.execStoreState s
  | .readStatus => Sys2Proof.Machine.execReadStatus s
  | .readConfig => Sys2Proof.Machine.execReadConfig s

end Sys2Proof.Machine
end

