-- ==== Sys2Proof/Machine/OnBeat.lean ====
section
/-! DEFINITION. The engine's transition for each beat (60_exceptions.md R126) and the transition for each
move of the host (20_memory.md R39), with the placing of a command on the channel. -/

namespace Sys2Proof.Machine

/-- `OnBeat(v)` (60_exceptions.md R126): sticky fault, then header legality, then payload collection, then
the command. While FAULT is 1, DEC is left as it is (log 19). -/
def onBeat (v : Beat) (s : State) : Host.Outcome State Fault Refusal :=
  if s.fault then
    if v = 0x30 then exec .readStatus s else .next (s.raiseFaulted (headerOpc v))
  else
    match s.dec with
    | .idle =>
      match decodeHeader s.cfg v with
      | .error _ => .next (s.raiseIllegal (headerOpc v))
      | .ok opc =>
        if 0 < opc.payloadBeats s.cfg then
          .next { s with dec := .collect opc (opc.payloadBeats s.cfg) [] }
        else exec (opc.withOperands s.cfg (headerLen v) []) s
    | .collect opc need buf =>
      if 0 < need - 1 then .next { s with dec := .collect opc (need - 1) (buf ++ [v]) }
      else exec (opc.withOperands s.cfg 0 (buf ++ [v])) { s with dec := .idle }

/-- One transition of the engine under the host's next move. Reset beats everything (60_exceptions.md
R127). While SEQ is not idle, `cmd_ready` is 0: an offered beat waits and the sequencer moves
(41_seeding.md R103). A beat that is taken joins `CB` (20_memory.md R38). With no move offered and SEQ
idle the engine has no move (20_memory.md R39). -/
def advance (s : State) : Host.Outcome State Fault Refusal :=
  match s.script, s.seq with
  | .reset :: rest, _ => .next { s with script := rest }.resetEngine
  | .accept :: rest, _ => .next { s with script := rest }.acceptBeat
  | .send v :: rest, .idle => onBeat v { s with script := rest, sent := s.sent ++ [v] }
  | .send _ :: _, .prime _ _ => .next (seqTick s)
  | [], .prime _ _ => .next (seqTick s)
  | [], .idle => .fault .awaitingHost

/-- `s` with the beats of a command next on the command channel, so that one transition runs it: all beats
but the last stand as taken (DEC), the last one is offered (log 9). -/
def placeBeats (s : State) (beats : List Beat) : State :=
  match beats with
  | [] => s
  | h :: payload =>
    match payload.getLast?, decodeHeader s.cfg h with
    | some v, .ok opc =>
      { s with dec := .collect opc 1 payload.dropLast, seq := .idle, script := .send v :: s.script }
    | _, _ => { s with dec := .idle, seq := .idle, script := .send h :: s.script }

end Sys2Proof.Machine
end

