-- ==== Sys2Proof/Machine/Step.lean ====
section
/-! DEFINITION. The step, and the placing of an opcode-table word where the step takes its next beat. -/

namespace Sys2Proof.Machine

/-- One step: one move of the host or one transition of the sequencer (log 10). -/
def step (s : State) : Host.Outcome State Fault Refusal := advance s

/-- The command of an opcode-table word placed so that the next step runs it (log 9). -/
def State.withFetchWord (s : State) (nbits w : Nat) : State :=
  placeBeats s (tableBeats s.cfg nbits w)

end Sys2Proof.Machine
end

