-- ==== Sys2Proof/Machine/Assembler.lean ====
section
/-! DEFINITION. The assembler (30_encoding.md R76, R77): one line of text to the beats of one command. Tool
side: no command and no step calls it. Details of the text that R76 leaves open: log 21. -/

namespace Sys2Proof.Machine

/-- The mnemonic of an opcode (30_encoding.md R62). -/
def opcodeText : Opcode → List Char
  | .step => "STEP".toList
  | .batch => "BATCH".toList
  | .nextU32 => "NEXT_U32".toList
  | .nextU64 => "NEXT_U64".toList
  | .fill => "FILL".toList
  | .tryFill => "TRY_FILL".toList
  | .seedKeys => "SEED_KEYS".toList
  | .seedBytes => "SEED_BYTES".toList
  | .loadState => "LOAD_STATE".toList
  | .storeState => "STORE_STATE".toList
  | .readStatus => "READ_STATUS".toList
  | .readConfig => "READ_CONFIG".toList

/-- The value of a digit in a base up to 16; none for another character. -/
def digitValue (base : Nat) (c : Char) : Option Nat :=
  let v : Option Nat :=
    if '0' ≤ c ∧ c ≤ '9' then some (c.toNat - 48)
    else if 'a' ≤ c ∧ c ≤ 'f' then some (c.toNat - 87)
    else if 'A' ≤ c ∧ c ≤ 'F' then some (c.toNat - 55)
    else none
  v.filter (· < base)

/-- The value of a run of digits, after `acc`. -/
def digitsValue (base : Nat) : Nat → List Char → Option Nat
  | acc, [] => some acc
  | acc, c :: cs => (digitValue base c).bind fun d => digitsValue base (acc * base + d) cs

/-- A number, "decimal or `0x` hexadecimal" (30_encoding.md R76). -/
def parseNumber : List Char → Option Nat
  | '0' :: 'x' :: ds => if ds.isEmpty then none else digitsValue 16 0 ds
  | ds => if ds.isEmpty then none else digitsValue 10 0 ds

/-- Hex bytes, two digits each, byte 0 first (30_encoding.md R76). -/
def parseHexBytes : List Char → Option (List Byte)
  | [] => some []
  | a :: b :: cs => do
    let hi ← digitValue 16 a
    let lo ← digitValue 16 b
    let rest ← parseHexBytes cs
    return BitVec.ofNat 8 (16 * hi + lo) :: rest
  | [_] => none

/-- A blank: space, tab or carriage return. 30_encoding.md R76 says nothing of white space. DESIGN CHOICE
(log 21). -/
def isBlank (c : Char) : Bool := c == ' ' || c == '\t' || c == '\r'

/-- Text without the blanks at its two ends. They are dropped around the line, so also before the mnemonic, and
around each operand. DESIGN CHOICE (log 21). -/
def trimBlanks (cs : List Char) : List Char :=
  ((cs.dropWhile isBlank).reverse.dropWhile isBlank).reverse

/-- A number below `2^W`, as an operand word (30_encoding.md R76: "each < 2^W"). -/
def parseWord (w : Width) (cs : List Char) : Option Word :=
  ((parseNumber cs).filter (· < 2 ^ w.bits)).map (BitVec.ofNat 64)

/-- A LEN operand, below `2^32` (30_encoding.md R76). -/
def parseLen (cs : List Char) : Option (BitVec 32) :=
  ((parseNumber cs).filter (· < 2 ^ 32)).map (BitVec.ofNat 32)

/-- The command of a mnemonic and its operands; none for a wrong operand count or an operand out of range
(30_encoding.md R76). -/
def parseCommand (cfg : Config) (opc : Opcode) (operands : List (List Char)) : Option Instr :=
  match opc, operands with
  | .step, [] => some .step
  | .batch, [] => some .batch
  | .nextU32, [] => some .nextU32
  | .nextU64, [] => some .nextU64
  | .fill, [len] => (parseLen len).map .fill
  | .tryFill, [len] => (parseLen len).map .tryFill
  | .seedKeys, [a, b] => do
    let k1 ← parseWord cfg.width a
    let k2 ← parseWord cfg.width b
    return .seedKeys k1 k2
  | .seedBytes, [hex] => (parseHexBytes hex).map .seedBytes
  | .loadState, words => do
    let values ← words.mapM (parseWord cfg.width)
    if values.length = cfg.lag + 1 then
      return .loadState (values.take cfg.lag) (values.getD cfg.lag 0)
    else none
  | .storeState, [] => some .storeState
  | .readStatus, [] => some .readStatus
  | .readConfig, [] => some .readConfig
  | _, _ => none

/-- What a line of assembly asks for. -/
inductive AsmLine where
  /-- A command. -/
  | command (i : Instr)
  /-- `.beat v`: one raw beat. -/
  | beat (v : Nat)
deriving DecidableEq, Repr

/-- The command of a mnemonic, or the raw beat of `.beat`, with its operands (30_encoding.md R76). -/
def parseNamed (cfg : Config) (name : List Char) (operands : List (List Char)) : Option AsmLine :=
  if name = ".beat".toList then
    match operands with
    | [v] => (parseNumber v).map .beat
    | _ => none
  else
    match Opcode.all.find? fun o => opcodeText o == name with
    | some opc => (parseCommand cfg opc operands).map .command
    | none => none

/-- A line of text without its comment: nothing, or its mnemonic or directive and its operands between
commas. -/
def parseLine (cfg : Config) (line : List Char) : Option (Option AsmLine) :=
  let text := trimBlanks (line.takeWhile (· != ';'))
  if text.isEmpty then some none
  else
    let name := text.takeWhile fun c => !isBlank c
    let rest := trimBlanks (text.dropWhile fun c => !isBlank c)
    let operands := if rest.isEmpty then [] else (rest.splitOn ',').map trimBlanks
    (parseNamed cfg name operands).map some

/-- The beats of a line, or its refusal (30_encoding.md R76: an operand out of range, or a command the
instance does not have; R77). -/
def emitLine (cfg : Config) : AsmLine → Option (List Beat)
  | .command i => if i.wellFormed cfg then some (encode i) else none
  | .beat v => if v < 2 ^ 64 then some [BitVec.ofNat 64 v] else none

/-- One line of assembly text to beats; a line without a command gives no beats. -/
def assembleLine (cfg : Config) (line : String) : Option (List Beat) :=
  match parseLine cfg line.toList with
  | none => none
  | some none => some []
  | some (some l) => emitLine cfg l

/-! The text of a command: what a person writes for it under 30_encoding.md R76. -/

/-- The two spellings of a number (30_encoding.md R76). -/
inductive NumberBase where
  | decimal
  | hexadecimal
deriving DecidableEq, Repr

/-- A number as text. -/
def numberText : NumberBase → Nat → List Char
  | .decimal, n => Nat.toDigits 10 n
  | .hexadecimal, n => '0' :: 'x' :: Nat.toDigits 16 n

/-- The two hexadecimal digits of a byte. -/
def byteText (b : Byte) : List Char := [Nat.digitChar (b.toNat / 16), Nat.digitChar (b.toNat % 16)]

/-- The operands of a command in the order of 30_encoding.md R76. -/
def operandTexts (base : NumberBase) : Instr → List (List Char)
  | .step => []
  | .batch => []
  | .nextU32 => []
  | .nextU64 => []
  | .fill len => [numberText base len.toNat]
  | .tryFill len => [numberText base len.toNat]
  | .seedKeys k1 k2 => [numberText base k1.toNat, numberText base k2.toNat]
  | .seedBytes bytes => [bytes.flatMap byteText]
  | .loadState lanes carry => (lanes ++ [carry]).map fun w => numberText base w.toNat
  | .storeState => []
  | .readStatus => []
  | .readConfig => []

/-- A mnemonic or directive and its operands, as one line. -/
def lineText (name : List Char) (operands : List (List Char)) : List Char :=
  if operands.isEmpty then name else name ++ ' ' :: [',', ' '].intercalate operands

/-- The line of assembly text of a command (30_encoding.md R76). -/
def commandText (base : NumberBase) (i : Instr) : List Char :=
  lineText (opcodeText i.opcode) (operandTexts base i)

/-- The line `.beat v` (30_encoding.md R76). -/
def beatText (base : NumberBase) (v : Nat) : List Char :=
  lineText ".beat".toList [numberText base v]

end Sys2Proof.Machine
end

