-- ==== Sys2Proof/Machine/LagSequence.lean ====
section
/-! DEFINITION. The lag-sequence form of the recurrence (40_engine.md R88): the specification that a
pipelined or batched engine is held to (R89, R148). No command calls it. -/

namespace Sys2Proof.Machine

/-- `S[0 .. L-1+j]` and `c_j` (40_engine.md R88). -/
structure LagState where
  terms : List Word
  carry : Word
deriving DecidableEq, Repr

/-- The sequence after `j` terms beyond the original lanes: `v_j = M * S[j] + c_j`,
`S[j+L] = v_j mod 2^W`, `c_{j+1} = v_j div 2^W` (40_engine.md R88). -/
def lagSequence (cfg : Config) (g : Gen) : Nat → LagState
  | 0 => ⟨g.lanes.reverse, g.carry⟩
  | j + 1 =>
    let p := lagSequence cfg g j
    let v := cfg.mult.toNat * (p.terms.getD j 0).toNat + p.carry.toNat
    ⟨p.terms ++ [wrap cfg.width v], wrap cfg.width (v / 2 ^ cfg.width.bits)⟩

/-- `r_j = wrap_W((S[j] ^ S[j+1]) + (S[j+L-1] ^ hi_j))` (40_engine.md R88, for W = 32 and 64). -/
def lagOutput (cfg : Config) (g : Gen) (j : Nat) : Word :=
  let terms := (lagSequence cfg g j).terms
  let hi := wrap cfg.width (cfg.mult.toNat * (terms.getD j 0).toNat / 2 ^ cfg.width.bits)
  wrap cfg.width
    ((terms.getD j 0 ^^^ terms.getD (j + 1) 0).toNat + (terms.getD (j + cfg.lag - 1) 0 ^^^ hi).toNat)

/-- The lanes `x[i] = S[k+L-1-i]` and the carry `c_k` after `k` steps (40_engine.md R88). -/
def lagGen (cfg : Config) (g : Gen) (k : Nat) : Gen where
  lanes := (List.range cfg.lag).map fun i => (lagSequence cfg g k).terms.getD (k + cfg.lag - 1 - i) 0
  carry := (lagSequence cfg g k).carry

end Sys2Proof.Machine
end

