-- ==== Sys2Proof/Machine/Ports.lean ====
section
/-! DEFINITION. The ports and the handshake at one rising edge of `clk` (20_memory.md R35, R37;
70_reset_and_hazards.md R138). -/

namespace Sys2Proof.Machine

/-- The engine's inputs at one edge (20_memory.md R35). -/
structure HostPins where
  rst : Bool
  cmdValid : Bool
  cmdData : Beat
  rspReady : Bool
deriving DecidableEq, Repr

/-- The engine's outputs (20_memory.md R35). `rsp` is `rsp_data` with `rsp_last` where `rsp_valid` is 1, and
none where it is 0: the two data pins mean nothing then. -/
structure EnginePins where
  cmdReady : Bool
  rsp : Option RspBeat
deriving DecidableEq, Repr

/-- The outputs in a state: both channels are silent while `rst` is 1 (20_memory.md R37), and `cmd_ready` is
0 while SEQ is not idle (10_state.md R26). DESIGN CHOICE (log 17), twice: the engine may hold `cmd_ready` at 0
for longer (70_reset_and_hazards.md R147), and this one does not; a queued response beat is offered "after
finitely many cycles" with no bound (R150), and this one offers the oldest beat of RQ, `rsp_valid` = 1, at every
edge with `rst` = 0 and RQ not empty. -/
def enginePins (rst : Bool) (s : State) : EnginePins where
  cmdReady := !rst && decide (s.seq = .idle)
  rsp := if rst then none else s.rq.head?

/-- Whether a command beat moves at the edge: `cmd_valid` and `cmd_ready` are both 1 (20_memory.md R37). -/
def commandMoves (p : HostPins) (s : State) : Bool :=
  p.cmdValid && (enginePins p.rst s).cmdReady

/-- Whether a response beat moves at the edge: `rsp_valid` and `rsp_ready` are both 1 (20_memory.md R37). -/
def responseMoves (p : HostPins) (s : State) : Bool :=
  p.rspReady && (enginePins p.rst s).rsp.isSome

/-- The host's moves that land at one edge, in the order the step takes them. -/
def edgeMoves (p : HostPins) (s : State) : List HostMove :=
  if p.rst then [.reset]
  else (if responseMoves p s then [.accept] else []) ++ (if commandMoves p s then [.send p.cmdData] else [])

/-- One rising edge (20_memory.md R37): reset where `rst` is 1; else the response beat that moves leaves RQ,
and the command beat that moves is acted on, or SEQ makes its transition. -/
def clockEdge (p : HostPins) (s : State) : Host.Outcome State Fault Refusal :=
  if p.rst then .next s.resetEngine
  else
    let s' := if responseMoves p s then s.acceptBeat else s
    if commandMoves p s then onBeat p.cmdData { s' with sent := s'.sent ++ [p.cmdData] }
    else .next (seqTick s')

end Sys2Proof.Machine
end

