-- ==== Sys2Proof/Safety.lean ====
section
/-! DEFINITION. What counts as a coherent state, a good state and the end of a run: the terms the
statements use. -/

namespace Sys2Proof.Machine

/-- L lanes, all of them and the carry W bits wide (10_state.md R16, R18). -/
def Gen.fits (cfg : Config) (g : Gen) : Bool :=
  decide (g.lanes.length = cfg.lag) && g.lanes.all cfg.width.fits && cfg.width.fits g.carry

/-- The lanes and the carry, where they hold values, fit the instance. -/
def State.genFits (s : State) : Bool :=
  match s.gen with
  | none => true
  | some g => g.fits s.cfg

/-- The lanes and the carry hold values while SEEDED is 1, and otherwise only while a seed command primes
(10_state.md R22, R34; 41_seeding.md R103). -/
def State.genMatchesFlags (s : State) : Bool :=
  if s.seeded then s.gen.isSome else s.gen.isNone || decide (s.seq ≠ .idle)

/-- In COLLECT some payload beats of a payload command are owed and the rest are held, the command exists
on the instance and FAULT is 0 (10_state.md R25; 60_exceptions.md R123, R124). -/
def State.decCoherent (s : State) : Bool :=
  match s.dec with
  | .idle => true
  | .collect opc need buf =>
    decide (1 ≤ need) && decide (need + buf.length = opc.payloadBeats s.cfg)
      && (!opc.seeds || decide (s.cfg.lag = 3)) && !s.fault

/-- In PRIME(k) 1 to 6 steps remain of a seed command whose load is done (10_state.md R26). -/
def State.seqCoherent (s : State) : Bool :=
  match s.seq with
  | .idle => true
  | .prime k opc =>
    decide (1 ≤ k) && decide (k ≤ Config.primeCount) && opc.seeds && decide (s.cfg.lag = 3) && s.gen.isSome
      && decide (s.dec = .idle) && !s.fault

/-- RQ ends where a response ends (30_encoding.md R74). -/
def State.rqFramed (s : State) : Bool :=
  match s.rq.getLast? with
  | none => true
  | some b => b.last

/-- The invariant of the machine. -/
def State.coherent (s : State) : Bool :=
  s.genFits && s.genMatchesFlags && s.decCoherent && s.seqCoherent && s.rqFramed

/-- The carry is below the multiplier (10_state.md R19). -/
def State.carryBelow (s : State) : Bool :=
  match s.gen with
  | none => true
  | some g => decide (g.carry.toNat < s.cfg.mult.toNat)

/-- A good state is one that is not faulted (60_exceptions.md R137: "a run with FAULT = 1 is not a good
run"). -/
def State.good (s : State) : Bool := !s.fault

/-- Between commands (10_state.md R25, R26). -/
def State.atBoundary (s : State) : Bool :=
  decide (s.dec = .idle) && decide (s.seq = .idle)

/-- The move offers a command beat. -/
def HostMove.isSend : HostMove → Bool
  | .send _ => true
  | .accept => false
  | .reset => false

/-- A run is over: the host has sent its last beat, DEC and SEQ are idle and RQ is empty
(70_reset_and_hazards.md R151). Moves that send no beat may still stand in the script. -/
def State.runOver (s : State) : Bool :=
  !s.script.any HostMove.isSend && s.atBoundary && s.rq.isEmpty

/-- What is observed of a run that is over (70_reset_and_hazards.md R151). -/
structure Observation where
  /-- `RB`, the response sequence. -/
  responses : List RspBeat
  /-- The final `x` and `c`. -/
  gen : Option Gen
  /-- The final SEEDED. -/
  seeded : Bool
  /-- The final FAULT. -/
  fault : Bool
deriving DecidableEq, Repr

/-- The observation `RB` and the final `(x, c, SEEDED, FAULT)` (70_reset_and_hazards.md R151). -/
def State.observation (s : State) : Observation where
  responses := s.received
  gen := s.gen
  seeded := s.seeded
  fault := s.fault

/-- The next step takes the last payload beat of a LOAD_STATE (43_state_io.md R115; 60_exceptions.md R126). -/
def State.completesLoad (s : State) : Prop :=
  s.seq = .idle ∧ (∃ v rest, s.script = .send v :: rest)
    ∧ ∃ need buf, s.dec = .collect .loadState need buf ∧ need ≤ 1

/-- Commands performed one after another (20_memory.md R52). -/
def execAll : List Instr → State → Host.Outcome State Fault Refusal
  | [], s => .next s
  | i :: is, s =>
    match exec i s with
    | .next t => execAll is t
    | .fault r => .fault r
    | .refused r => .refused r

end Sys2Proof.Machine
end

