-- ==== Sys2Proof/Certificates/Slice0/Obligations.lean ====
section
/-! DEFINITION. The statements for the provers. -/

open Sys2Proof Sys2Proof.Machine

/-! ## Encoding -/

/-- Decoding the beats of a command that exists on the instance gives the command back, with every operand
at every value the encoding admits (30_encoding.md R59 to R69, R77). -/
def Obligations.DecodeOfEncodeIsTheCommand : Prop :=
  ∀ (c : LegalConfig) (i : Instr), i.wellFormed c.params = true → decode c.params (encode i) = .ok i

/-- What decodes is a command of the instance; and on W = 64, where no payload bit is ignored, its encoding is
the beats it was decoded from. -/
def Obligations.EncodeOfDecodeIsTheBeats : Prop :=
  ∀ (c : LegalConfig) (beats : List Beat) (i : Instr), decode c.params beats = .ok i →
    i.wellFormed c.params = true ∧ (c.params.width = .w64 → encode i = beats)

/-- `LegalHeader(h)` of 30_encoding.md R61, clause by clause, is what the decoder accepts as a header. -/
def Obligations.HeaderAcceptedExactlyWhenLegal : Prop :=
  ∀ (cfg : Config) (h : Beat),
    (∃ opc, decodeHeader cfg h = .ok opc) ↔
      (h.extractLsb' 0 8 ∈
          ([0x01, 0x02, 0x03, 0x04, 0x05, 0x06, 0x10, 0x11, 0x20, 0x21, 0x30, 0x31] : List (BitVec 8))
        ∧ h.extractLsb' 8 24 = 0
        ∧ (h.extractLsb' 0 8 ∈ ([0x05, 0x06] : List (BitVec 8)) ∨ h.extractLsb' 32 32 = 0)
        ∧ (h.extractLsb' 0 8 ∉ ([0x10, 0x11] : List (BitVec 8)) ∨ cfg.lag = 3))

/-- Words written out from the opcode map (30_encoding.md R62, R76, R77) decode to the commands they stand
for, one of each family, and reserved ones are refused by name (R63). -/
def Obligations.WrittenWordsDecode : Prop :=
  ∀ c : LegalConfig, c.params.width = .w64 → c.params.lag = 3 →
    decode c.params [0x0000000000000001] = .ok .step
    ∧ decode c.params [0x0000000D00000005] = .ok (.fill 13)
    ∧ decode c.params [0x0000000000000010, 1, 2] = .ok (.seedKeys 1 2)
    ∧ decode c.params [0x0000000000000020, 1, 2, 3, 4] = .ok (.loadState [1, 2, 3] 4)
    ∧ decode c.params [0x0000000000000030] = .ok .readStatus
    ∧ decode c.params [0x0000000000000000] = .error (.reservedOpcode 0)
    ∧ decode c.params [0x0000000000000101] = .error (.reservedBitsSet .step)
    ∧ decode c.params [0x0000000100000001] = .error (.lengthNotZero .step)

/-- The value of a payload word is the low W bits of its beat, the rest ignored; SEED_KEYS takes k1 and
then k2, LOAD_STATE x[0] .. x[L-1] and then c (30_encoding.md R66). -/
def Obligations.PayloadWordsAreTheLowBits : Prop :=
  ∀ c : LegalConfig,
    (∀ b0 b1 : Beat, c.params.lag = 3 →
      ∃ k1 k2, decode c.params [0x10, b0, b1] = .ok (.seedKeys k1 k2)
        ∧ k1.toNat = b0.toNat % 2 ^ c.params.width.bits ∧ k2.toNat = b1.toNat % 2 ^ c.params.width.bits)
    ∧ ∀ bs : List Beat, bs.length = c.params.lag + 1 →
      ∃ xs cy, decode c.params (0x20 :: bs) = .ok (.loadState xs cy)
        ∧ xs.length = c.params.lag
        ∧ (∀ i < c.params.lag,
            (xs.getD i 0).toNat = (bs.getD i 0).toNat % 2 ^ c.params.width.bits)
        ∧ cy.toNat = (bs.getD c.params.lag 0).toNat % 2 ^ c.params.width.bits

/-- Seed byte i is byte i mod 8 of payload beat i div 8, and seed word j is the little-endian value of its
W/8 bytes: for W = 64 payload beat j, for W = 32 a half of beat j div 2 (30_encoding.md R67, R68). -/
def Obligations.SeedBytesAndWordsOfThePayload : Prop :=
  ∀ (c : LegalConfig) (bs : List Beat), c.params.lag = 3 →
    bs.length = (4 * c.params.width.bytes + 7) / 8 →
    ∃ bytes, decode c.params (0x11 :: bs) = .ok (.seedBytes bytes)
      ∧ bytes.length = 4 * c.params.width.bytes
      ∧ (∀ i < 4 * c.params.width.bytes,
          bytes.getD i 0 = (bs.getD (i / 8) 0).extractLsb' (8 * (i % 8)) 8)
      ∧ ∀ j < 4,
          (seedWord c.params.width bytes j).toNat =
              ((List.range c.params.width.bytes).map fun k =>
                (bytes.getD (j * c.params.width.bytes + k) 0).toNat * 2 ^ (8 * k)).sum
            ∧ (c.params.width = .w64 → seedWord c.params.width bytes j = bs.getD j 0)
            ∧ (c.params.width = .w32 →
                (seedWord c.params.width bytes j).toNat =
                  (bs.getD (j / 2) 0).toNat / 2 ^ (32 * (j % 2)) % 2 ^ 32)

/-- A response is its status beat (STATUS, OPCE and NDATA in their fields) and then its data beats, with
`rsp_last` on the last beat only, appended to RQ (30_encoding.md R74, R75). The status codes OK, ERR_ILLEGAL,
ERR_FAULTED and ERR_UNSEEDED are 0x00, 0x01, 0x02 and 0x03 (30_encoding.md R71). -/
def Obligations.ResponsesAreFramed : Prop :=
  (StatusCode.ok.code = 0x00 ∧ StatusCode.errIllegal.code = 0x01
    ∧ StatusCode.errFaulted.code = 0x02 ∧ StatusCode.errUnseeded.code = 0x03)
  ∧ ∀ (s : State) (code : StatusCode) (opce : BitVec 8) (data : List Beat), data.length < 2 ^ 32 →
    ∃ rs, (s.respond code opce data).rq = s.rq ++ rs
      ∧ rs.map RspBeat.data =
          BitVec.ofNat 64 (code.code.toNat + opce.toNat * 2 ^ 8 + data.length * 2 ^ 32) :: data
      ∧ ∀ i ≤ data.length, rs[i]?.map RspBeat.last = some (decide (i = data.length))

/-- Byte i of a FILL stream is byte i mod 8 of data beat i div 8, there are ceil(LEN / 8) beats, and the byte
positions at or beyond LEN are 0 (30_encoding.md R73). -/
def Obligations.StreamBytesSitInDataBeats : Prop :=
  ∀ bytes : List Byte,
    (packBytes bytes).length = (bytes.length + 7) / 8
    ∧ (∀ i < bytes.length, ((packBytes bytes).getD (i / 8) 0).extractLsb' (8 * (i % 8)) 8 = bytes.getD i 0)
    ∧ ∀ i, bytes.length ≤ i → i < 8 * (packBytes bytes).length →
        ((packBytes bytes).getD (i / 8) 0).extractLsb' (8 * (i % 8)) 8 = 0

/-! ## The step engine -/

/-- `StepFn` in exact arithmetic (40_engine.md R80), with the lanes and the carry after it W bits wide, for
every permutation of the index form; the state update holds for every permutation. -/
def Obligations.StepFunctionArithmetic : Prop :=
  ∀ (c : LegalConfig) (g : Gen), g.fits c.params = true →
    let cfg := c.params
    let t := (g.lane (cfg.lag - 1)).toNat * cfg.mult.toNat
    let low := t % 2 ^ cfg.width.bits
    let hi := t / 2 ^ cfg.width.bits
    let sum := low + g.carry.toNat
    let r := stepFn cfg g
    hi < cfg.mult.toNat
    ∧ (r.gen.lane 0).toNat = sum % 2 ^ cfg.width.bits
    ∧ (∀ i, 1 ≤ i → i < cfg.lag → r.gen.lane i = g.lane (i - 1))
    ∧ r.gen.carry.toNat = (hi + sum / 2 ^ cfg.width.bits) % 2 ^ cfg.width.bits
    ∧ sum / 2 ^ cfg.width.bits ≤ 1
    ∧ (∀ pa pb pc, cfg.perm = .indices pa pb pc →
        r.word.toNat =
          (((g.lane pa).toNat ^^^ (g.lane pb).toNat) + ((g.lane pc).toNat ^^^ hi)) % 2 ^ cfg.width.bits)
    ∧ r.gen.fits cfg = true
    ∧ r.word.toNat < 2 ^ cfg.width.bits

/-- The output of a 32-bit or 64-bit instance is `wrap_W((x[L-1] ^ x[L-2]) + (x[0] ^ hi))`, from the lanes
before rotation (40_engine.md R82). -/
def Obligations.OutputPairingOfWideInstances : Prop :=
  ∀ (c : LegalConfig) (g : Gen), g.fits c.params = true →
    (c.params.width = .w32 ∨ c.params.width = .w64) →
    (stepFn c.params g).word.toNat =
      (((g.lane (c.params.lag - 1)).toNat ^^^ (g.lane (c.params.lag - 2)).toNat)
        + ((g.lane 0).toNat
            ^^^ (g.lane (c.params.lag - 1)).toNat * c.params.mult.toNat / 2 ^ c.params.width.bits))
        % 2 ^ c.params.width.bits

/-- The new lane is `(low + c) mod 2^W`, the carry-out b is 1 exactly when `low + c >= 2^W`, and the new carry
is `hi + b`, which never reaches `2^W` (40_engine.md R84, R86). -/
def Obligations.CarryAddAndUpdate : Prop :=
  ∀ (c : LegalConfig) (g : Gen), g.fits c.params = true →
    let cfg := c.params
    let t := (g.lane (cfg.lag - 1)).toNat * cfg.mult.toNat
    let low := t % 2 ^ cfg.width.bits
    let hi := t / 2 ^ cfg.width.bits
    let b := if 2 ^ cfg.width.bits ≤ low + g.carry.toNat then 1 else 0
    ((stepFn cfg g).gen.lane 0).toNat = (low + g.carry.toNat) % 2 ^ cfg.width.bits
    ∧ (stepFn cfg g).gen.carry.toNat = hi + b
    ∧ hi + b < 2 ^ cfg.width.bits

/-- One step is the multiply-accumulate `v = M * x[L-1] + c`: the new lane is `v mod 2^W`, the new carry
`v div 2^W`, and a carry of at most M - 1 stays so (40_engine.md R87). -/
def Obligations.MultiplyAccumulateIdentity : Prop :=
  ∀ (c : LegalConfig) (g : Gen), g.fits c.params = true →
    let cfg := c.params
    let v := cfg.mult.toNat * (g.lane (cfg.lag - 1)).toNat + g.carry.toNat
    ((stepFn cfg g).gen.lane 0).toNat = v % 2 ^ cfg.width.bits
    ∧ (stepFn cfg g).gen.carry.toNat = v / 2 ^ cfg.width.bits
    ∧ (g.carry.toNat ≤ cfg.mult.toNat - 1 → (stepFn cfg g).gen.carry.toNat ≤ cfg.mult.toNat - 1)

/-- The range of the carry (10_state.md R19): in [1, M-2] after either seed load, kept at most M - 1 by any
number of steps, 0 after a step whose multiply-accumulate stays below `2^W`, and at most M after one step from
any W-bit carry. -/
def Obligations.CarryRangeFacts : Prop :=
  ∀ c : LegalConfig,
    (∀ k1 k2, 1 ≤ (loadKeys c.params k1 k2).carry.toNat
      ∧ (loadKeys c.params k1 k2).carry.toNat ≤ c.params.mult.toNat - 2)
    ∧ (∀ bytes, 1 ≤ (loadSeed c.params bytes).carry.toNat
      ∧ (loadSeed c.params bytes).carry.toNat ≤ c.params.mult.toNat - 2)
    ∧ ∀ g : Gen, g.fits c.params = true →
        (∀ k, g.carry.toNat ≤ c.params.mult.toNat - 1 →
          (runSteps c.params k g).1.carry.toNat ≤ c.params.mult.toNat - 1)
        ∧ (c.params.mult.toNat * (g.lane (c.params.lag - 1)).toNat + g.carry.toNat < 2 ^ c.params.width.bits →
          (stepFn c.params g).gen.carry = 0)
        ∧ (stepFn c.params g).gen.carry.toNat ≤ c.params.mult.toNat

/-- The zero state and the all-ones state with carry M - 1 map to themselves, with outputs 0 and `2^W - M` where
the permutation pairs the lanes by index, and LOAD_STATE puts the engine in either (40_engine.md R92;
43_state_io.md R116). -/
def Obligations.FixedPointsOfTheStep : Prop :=
  ∀ (c : LegalConfig) (s : State), s.config = c →
    let cfg := c.params
    let ones : Word := BitVec.ofNat 64 (2 ^ cfg.width.bits - 1)
    let zeroGen : Gen := ⟨List.replicate cfg.lag 0, 0⟩
    let onesGen : Gen := ⟨List.replicate cfg.lag ones, cfg.mult - 1⟩
    (stepFn cfg zeroGen).gen = zeroGen
    ∧ (stepFn cfg onesGen).gen = onesGen
    ∧ (∀ pa pb pc, pa < cfg.lag → pb < cfg.lag → pc < cfg.lag → cfg.perm = .indices pa pb pc →
        (stepFn cfg zeroGen).word = 0
        ∧ (stepFn cfg onesGen).word.toNat = 2 ^ cfg.width.bits - cfg.mult.toNat)
    ∧ ∀ g ∈ [zeroGen, onesGen], ∃ t, exec (.loadState g.lanes g.carry) s = .next t ∧ t.gen = some g

/-- The lag-sequence form: the j-th step outputs r_j, and after k steps the lanes are S[k+L-1-i] and the carry
is c_k (40_engine.md R88); the states also where the permutation is OPEN. -/
def Obligations.StepsAreTheLagSequence : Prop :=
  ∀ (c : LegalConfig) (g : Gen) (k : Nat), g.fits c.params = true →
    (runSteps c.params k g).1 = lagGen c.params g k
    ∧ (c.params.perm = .indices (c.params.lag - 1) (c.params.lag - 2) 0 →
        (runSteps c.params k g).2 = (List.range k).map (lagOutput c.params g))

/-- Whatever the permutation, the states of a run of steps are the same: only the words depend on it, and an
OPEN permutation is some function of the lanes before rotation and hi (40_engine.md R83). -/
def Obligations.PermutationTouchesOnlyTheWords : Prop :=
  ∀ (cfg : Config) (p : Perm) (k : Nat) (g : Gen),
    (runSteps { cfg with perm := p } k g).1 = (runSteps cfg k g).1
    ∧ ∀ which, (stepFn { cfg with perm := .openFn which } g).word.toNat =
        (Config.permFn which cfg.width g.lanes (productHigh cfg g)).toNat % 2 ^ cfg.width.bits

/-! ## The commands, each with the whole state it leaves -/

/-- STEP on a seeded engine advances the state by one step and answers one word; unseeded it answers
ERR_UNSEEDED and changes nothing. With an oldest lane of 0 the new lane is c and the new carry 0
(40_engine.md R90). -/
def Obligations.StepAnswersOneWord : Prop :=
  ∀ s : State,
    (∀ g, s.seeded = true → s.gen = some g →
      exec .step s = .next { s with
        gen := some (stepFn s.cfg g).gen
        rq := s.rq ++ responseBeats .ok 0x01 [(stepFn s.cfg g).word] })
    ∧ (∀ g : Gen, g.fits s.cfg = true → g.lane (s.cfg.lag - 1) = 0 →
        (stepFn s.cfg g).gen.lane 0 = g.carry ∧ (stepFn s.cfg g).gen.carry = 0)
    ∧ (s.seeded = false →
        exec .step s = .next { s with rq := s.rq ++ responseBeats .errUnseeded 0x01 [] })

/-- BATCH on a seeded engine runs BATCH_N steps, 4 or 6, and answers their words in order; unseeded it answers
ERR_UNSEEDED and changes nothing (40_engine.md R91). -/
def Obligations.BatchAnswersItsWords : Prop :=
  ∀ s : State,
    (s.cfg.batchN = 4 ∨ s.cfg.batchN = 6)
    ∧ (∀ g, s.seeded = true → s.gen = some g →
      exec .batch s = .next { s with
        gen := some (runSteps s.cfg s.cfg.batchN g).1
        rq := s.rq ++ responseBeats .ok 0x02 (runSteps s.cfg s.cfg.batchN g).2 }
      ∧ (runSteps s.cfg s.cfg.batchN g).2.length = s.cfg.batchN)
    ∧ (s.seeded = false →
        exec .batch s = .next { s with rq := s.rq ++ responseBeats .errUnseeded 0x02 [] })

/-- BATCH gives the words, in the same order, and leaves the state of BATCH_N STEP commands
(40_engine.md R89, R91). -/
def Obligations.BatchEqualsRepeatedSteps : Prop :=
  ∀ (s : State) (g : Gen), s.seeded = true → s.gen = some g →
    ∃ (ws : List Word) (t : State),
      ws.length = s.cfg.batchN
      ∧ execAll (List.replicate s.cfg.batchN .step) s
          = .next { t with rq := s.rq ++ ws.flatMap fun w => responseBeats .ok 0x01 [w] }
      ∧ exec .batch s = .next { t with rq := s.rq ++ responseBeats .ok 0x02 ws }

/-- NEXT_U32 takes max(1, 32/W) words, the first one highest, and answers the low 32 bits of their
concatenation (42_serializer.md R110, R111). -/
def Obligations.NextU32ComposesWords : Prop :=
  ∀ s : State,
    (∀ g, s.seeded = true → s.gen = some g →
      let run := runSteps s.cfg (max 1 (32 / s.cfg.width.bits)) g
      exec .nextU32 s = .next { s with
        gen := some run.1
        rq := s.rq ++ responseBeats .ok 0x03
          [BitVec.ofNat 64 (run.2.foldl (fun v r => v * 2 ^ s.cfg.width.bits + r.toNat) 0 % 2 ^ 32)] })
    ∧ (s.seeded = false →
        exec .nextU32 s = .next { s with rq := s.rq ++ responseBeats .errUnseeded 0x03 [] })

/-- NEXT_U64 takes max(1, 64/W) words, the first one most significant, and answers their concatenation
(42_serializer.md R110, R112). -/
def Obligations.NextU64ComposesWords : Prop :=
  ∀ s : State,
    (∀ g, s.seeded = true → s.gen = some g →
      let run := runSteps s.cfg (max 1 (64 / s.cfg.width.bits)) g
      exec .nextU64 s = .next { s with
        gen := some run.1
        rq := s.rq ++ responseBeats .ok 0x04
          [BitVec.ofNat 64 (run.2.foldl (fun v r => v * 2 ^ s.cfg.width.bits + r.toNat) 0)] })
    ∧ (s.seeded = false →
        exec .nextU64 s = .next { s with rq := s.rq ++ responseBeats .errUnseeded 0x04 [] })

/-- FILL and TRY_FILL of LEN bytes on a seeded engine: the steps that R107 (WORD) or R108 (BATCH) count, and
ceil(LEN / 8) data beats whose byte i, for i < LEN, is byte i mod (W/8) of word i div (W/8), with zeros above;
unseeded, for any LEN, ERR_UNSEEDED and no change (42_serializer.md R105 to R109). -/
def Obligations.FillAnswersTheByteStream : Prop :=
  ∀ (s : State) (len : BitVec 32),
    let w8 := s.cfg.width.bytes
    let steps :=
      match s.cfg.fillGranularity with
      | .word => (len.toNat + (w8 - 1)) / w8
      | .batch => s.cfg.batchN * ((len.toNat + (s.cfg.batchN * w8 - 1)) / (s.cfg.batchN * w8))
    (∀ g, s.seeded = true → s.gen = some g →
      let run := runSteps s.cfg steps g
      ∃ data : List Beat,
        data.length = (len.toNat + 7) / 8
        ∧ (∀ i < len.toNat,
            i / w8 < steps
            ∧ (data.getD (i / 8) 0).extractLsb' (8 * (i % 8)) 8
              = (run.2.getD (i / w8) 0).extractLsb' (8 * (i % w8)) 8)
        ∧ (∀ i, len.toNat ≤ i → i < 8 * data.length →
            (data.getD (i / 8) 0).extractLsb' (8 * (i % 8)) 8 = 0)
        ∧ exec (.fill len) s = .next { s with
            gen := some run.1, rq := s.rq ++ responseBeats .ok 0x05 data }
        ∧ exec (.tryFill len) s = .next { s with
            gen := some run.1, rq := s.rq ++ responseBeats .ok 0x06 data })
    ∧ (s.seeded = false →
        exec (.fill len) s = .next { s with rq := s.rq ++ responseBeats .errUnseeded 0x05 [] }
        ∧ exec (.tryFill len) s = .next { s with rq := s.rq ++ responseBeats .errUnseeded 0x06 [] })

/-- With FILL_GRANULARITY = WORD and a first length that is a multiple of W/8, two fills give the bytes and
leave the state of one fill of the summed length (42_serializer.md R113). -/
def Obligations.SuccessiveFillsContinueTheStream : Prop :=
  ∀ (c : LegalConfig) (g : Gen) (len1 len2 : Nat),
    c.params.fillGranularity = .word → len1 % c.params.width.bytes = 0 →
    let f1 := fillBytes c.params len1 g
    let f2 := fillBytes c.params len2 f1.1
    let f := fillBytes c.params (len1 + len2) g
    f2.1 = f.1
    ∧ (unpackBytes f1.2).take len1 ++ (unpackBytes f2.2).take len2 = (unpackBytes f.2).take (len1 + len2)

/-- The bytes of FILL LEN, read as little-endian words, are the first words of ceil(LEN / (W/8)) STEP commands
from the same state; with FILL_GRANULARITY = WORD the generator state they leave is the same too
(42_serializer.md R114). -/
def Obligations.FillAgreesWithStepWords : Prop :=
  ∀ (s : State) (g : Gen) (len : BitVec 32), s.seeded = true → s.gen = some g →
    let w8 := s.cfg.width.bytes
    let k := (len.toNat + (w8 - 1)) / w8
    ∃ (data : List Beat) (words : List Word) (t u : State),
      exec (.fill len) s = .next t
      ∧ t.rq = s.rq ++ responseBeats .ok 0x05 data
      ∧ execAll (List.replicate k .step) s = .next u
      ∧ words.length = k
      ∧ u.rq = s.rq ++ words.flatMap (fun w => responseBeats .ok 0x01 [w])
      ∧ (∀ j, (j + 1) * w8 ≤ len.toNat →
          littleEndianValue (((unpackBytes data).drop (j * w8)).take w8) = (words.getD j 0).toNat)
      ∧ (s.cfg.fillGranularity = .word → t.gen = u.gen)

/-- SEED_KEYS, on an engine with L = 3 in any state: keys in the two newest lanes, the defaults in the oldest
lane and the carry, six discarded steps, SEEDED set, OK (41_seeding.md R95, R97, and the load of R96). -/
def Obligations.SeedKeysLoadsAndPrimes : Prop :=
  ∀ (s : State) (k1 k2 : Word), s.cfg.lag = 3 → s.cfg.width.fits k1 = true → s.cfg.width.fits k2 = true →
    exec (.seedKeys k1 k2) s = .next { s with
      gen := some (runSteps s.cfg 6 ⟨[k1, k2, s.cfg.defaultLane], s.cfg.defaultCarry⟩).1
      seeded := true
      seq := .idle
      rq := s.rq ++ responseBeats .ok 0x10 [] }

/-- SEED_BYTES, on an engine with L = 3 in any state: the carry masked and patterned from seed word 0, seed words
1 and 2 in the two newest lanes, word 3 shifted with its low bit forced in the oldest, six discarded steps,
SEEDED set, OK (41_seeding.md R95, R100, and the load of R98, R99, R101). -/
def Obligations.SeedBytesLoadsAndPrimes : Prop :=
  ∀ (s : State) (bytes : List Byte), s.cfg.lag = 3 → bytes.length = 4 * s.cfg.width.bytes →
    ∃ (oldest carry : Word),
      oldest.toNat =
        (((seedWord s.cfg.width bytes 3).toNat * 2 ^ s.cfg.oldShift) % 2 ^ s.cfg.width.bits) ||| 1
      ∧ carry = (seedWord s.cfg.width bytes 0 &&& s.cfg.carryMask) ||| s.cfg.carryOr
      ∧ exec (.seedBytes bytes) s = .next { s with
          gen := some (runSteps s.cfg 6
            ⟨[seedWord s.cfg.width bytes 1, seedWord s.cfg.width bytes 2, oldest], carry⟩).1
          seeded := true
          seq := .idle
          rq := s.rq ++ responseBeats .ok 0x11 [] }

/-- After the load and before priming the oldest lane is neither 0 nor all-ones and the carry is in [1, M-2],
for both seed commands and every operand (41_seeding.md R102). -/
def Obligations.SeedLoadsAreNotDegenerate : Prop :=
  ∀ (c : LegalConfig) (g : Gen), c.params.lag = 3 →
    (∃ k1 k2, g = loadKeys c.params k1 k2) ∨ (∃ bytes, g = loadSeed c.params bytes) →
    g.lane 2 ≠ 0 ∧ (g.lane 2).toNat ≠ 2 ^ c.params.width.bits - 1
      ∧ 1 ≤ g.carry.toNat ∧ g.carry.toNat ≤ c.params.mult.toNat - 2

/-- LOAD_STATE writes the lanes and the carry verbatim, any W-bit values, sets SEEDED and answers OK, whatever
SEEDED was (43_state_io.md R115, R116). -/
def Obligations.LoadStateWritesVerbatim : Prop :=
  ∀ (s : State) (lanes : List Word) (carry : Word), lanes.length = s.cfg.lag →
    (∀ x ∈ lanes, s.cfg.width.fits x = true) → s.cfg.width.fits carry = true →
    exec (.loadState lanes carry) s = .next { s with
      gen := some ⟨lanes, carry⟩
      seeded := true
      rq := s.rq ++ responseBeats .ok 0x20 [] }

/-- STORE_STATE answers the lanes, newest first, and the carry, and changes nothing else; unseeded it answers
ERR_UNSEEDED (43_state_io.md R117). -/
def Obligations.StoreStateReadsOut : Prop :=
  ∀ s : State,
    (∀ g, s.seeded = true → s.gen = some g →
      exec .storeState s = .next { s with
        rq := s.rq ++ responseBeats .ok 0x21 (g.lanes ++ [g.carry]) })
    ∧ (s.seeded = false →
        exec .storeState s = .next { s with rq := s.rq ++ responseBeats .errUnseeded 0x21 [] })

/-- The data beats of STORE_STATE, sent as the payload of a LOAD_STATE to an engine with the same configuration,
make every command sequence give the same responses and the same end state (43_state_io.md R118). -/
def Obligations.StoredStateResumesTheStream : Prop :=
  ∀ (s u : State) (g : Gen) (is : List Instr), s.coherent = true → s.seeded = true → s.gen = some g →
    u.config = s.config → u.fault = s.fault → u.dec = s.dec → u.seq = s.seq →
    ∃ (s1 u1 s2 u2 : State) (data : List Beat) (load : Instr) (rs : List RspBeat),
      exec .storeState s = .next s1
      ∧ s1.rq = s.rq ++ responseBeats .ok 0x21 data
      ∧ decode u.cfg (0x20 :: data) = .ok load
      ∧ exec load u = .next u1
      ∧ execAll is s = .next s2
      ∧ execAll is u1 = .next u2
      ∧ s2.rq = s.rq ++ rs
      ∧ u2.rq = u1.rq ++ rs
      ∧ u2.gen = s2.gen ∧ u2.seeded = s2.seeded ∧ u2.fault = s2.fault ∧ u2.dec = s2.dec ∧ u2.seq = s2.seq

/-- READ_STATUS answers SEEDED in bit 0, FAULT in bit 1 and zeros above, in every state, and changes nothing else
(10_state.md R28; 43_state_io.md R119). -/
def Obligations.ReadStatusAnswersTheFlags : Prop :=
  ∀ s : State,
    exec .readStatus s = .next { s with
      rq := s.rq ++ responseBeats .ok 0x30 [BitVec.ofNat 64 (s.seeded.toNat + 2 * s.fault.toNat)] }

/-- READ_CONFIG answers the six beats of the CONFIG block, field by field, and changes nothing else (10_state.md
R29; 43_state_io.md R120). -/
def Obligations.ReadConfigAnswersTheParameters : Prop :=
  ∀ s : State,
    let cfg := s.cfg
    let gran := match cfg.fillGranularity with | .word => 0 | .batch => 1
    let perm := match cfg.perm with
      | .indices pa pb pc => pa + pb * 2 ^ 8 + pc * 2 ^ 16
      | .openFn _ => 0xFFFFFF
    exec .readConfig s = .next { s with
      rq := s.rq ++ responseBeats .ok 0x31
        [ BitVec.ofNat 64 (cfg.width.bits + cfg.lag * 2 ^ 8 + cfg.batchN * 2 ^ 16 + 6 * 2 ^ 24
            + cfg.oldShift * 2 ^ 32 + (cfg.carryOr.toNat % 2 ^ 8) * 2 ^ 40 + gran * 2 ^ 48),
          cfg.mult, cfg.carryMask, BitVec.ofNat 64 perm, cfg.defaultLane, cfg.defaultCarry ] }

/-! ## Errors -/

/-- While SEEDED is 0 the seven commands that use the lanes or the carry answer ERR_UNSEEDED and change nothing
(no flag either), they have no payload, and the other five answer OK (60_exceptions.md R125). -/
def Obligations.UnseededCommandsAreRefused : Prop :=
  ∀ (s : State) (i : Instr), s.seeded = false →
    if i.opcode ∈ ([.step, .batch, .nextU32, .nextU64, .fill, .tryFill, .storeState] : List Opcode) then
      i.opcode.payloadBeats s.cfg = 0
      ∧ exec i s = .next { s with rq := s.rq ++ responseBeats .errUnseeded i.opcode.code [] }
    else
      i.wellFormed s.cfg = true →
        ∃ t data, exec i s = .next t ∧ t.rq = s.rq ++ responseBeats .ok i.opcode.code data

/-- An illegal header on an engine that is not faulted sets FAULT and is answered ERR_ILLEGAL with the beat's low
byte; nothing else of the engine changes and no payload is collected (60_exceptions.md R123). -/
def Obligations.IllegalHeaderSetsFault : Prop :=
  ∀ (s : State) (v : Beat) (rest : List HostMove), s.fault = false → s.dec = .idle → s.seq = .idle →
    s.script = .send v :: rest → (∀ opc, decodeHeader s.cfg v ≠ .ok opc) →
    step s = .next { s with
      fault := true
      rq := s.rq ++ responseBeats .errIllegal (v.extractLsb' 0 8) []
      script := rest
      sent := s.sent ++ [v] }

/-- While FAULT is 1 every beat is answered on its own: exactly 0x30 as READ_STATUS, every other one
ERR_FAULTED with nothing changed (60_exceptions.md R124). -/
def Obligations.FaultedEngineAnswersEveryBeat : Prop :=
  ∀ (s : State) (v : Beat) (rest : List HostMove), s.fault = true → s.seq = .idle →
    s.script = .send v :: rest →
    step s = .next { s with
      rq := s.rq ++
        (if v = 0x0000000000000030 then
          responseBeats .ok 0x30 [BitVec.ofNat 64 (s.seeded.toNat + 2)]
        else responseBeats .errFaulted (v.extractLsb' 0 8) [])
      script := rest
      sent := s.sent ++ [v] }

/-- A legal header with payload only starts collecting, and a payload beat that is not the last one is only
held: no response, no effect on the lanes, the carry or the flags (10_state.md R25; 20_memory.md R44). -/
def Obligations.PayloadIsCollectedWithoutEffect : Prop :=
  ∀ (s : State) (v : Beat) (rest : List HostMove), s.fault = false → s.seq = .idle →
    s.script = .send v :: rest →
    (∀ opc, s.dec = .idle → decodeHeader s.cfg v = .ok opc → 0 < opc.payloadBeats s.cfg →
      step s = .next { s with
        dec := .collect opc (opc.payloadBeats s.cfg) [], script := rest, sent := s.sent ++ [v] })
    ∧ ∀ opc need buf, s.dec = .collect opc need buf → 2 ≤ need →
      step s = .next { s with
        dec := .collect opc (need - 1) (buf ++ [v]), script := rest, sent := s.sent ++ [v] }

/-- Every command is answered by exactly one response, with its opcode echoed and the number of data beats of the
opcode map when it is OK and none otherwise; the response is appended, and the configuration, DEC and both
channels' other sequences are unchanged; a command of the instance leaves FAULT unchanged
(20_memory.md R46, R48; 30_encoding.md R62, R64). -/
def Obligations.EveryCommandAnswersOnce : Prop :=
  ∀ (i : Instr) (s : State), s.coherent = true →
    ∃ (t : State) (code : StatusCode) (data : List Beat),
      exec i s = .next t
      ∧ t.rq = s.rq ++ responseBeats code i.opcode.code data
      ∧ data.length = (if code = .ok then i.opcode.dataBeats s.cfg i.len else 0)
      ∧ t.config = s.config ∧ t.dec = s.dec ∧ t.script = s.script ∧ t.sent = s.sent
      ∧ t.received = s.received
      ∧ (i.wellFormed s.cfg = true → t.fault = s.fault)

/-- READ_STATUS, READ_CONFIG and STORE_STATE change nothing but RQ; LOAD_STATE, SEED_KEYS and SEED_BYTES with the
same payload twice leave what they leave once (20_memory.md R49). -/
def Obligations.ReadsAndLoadsAreIdempotent : Prop :=
  ∀ (i : Instr) (s : State),
    (i.opcode ∈ ([.readStatus, .readConfig, .storeState] : List Opcode) →
      ∃ rs, exec i s = .next { s with rq := s.rq ++ rs })
    ∧ (i.opcode ∈ ([.loadState, .seedKeys, .seedBytes] : List Opcode) → i.wellFormed s.cfg = true →
      ∃ t u, exec i s = .next t ∧ exec i t = .next u ∧ u = { t with rq := u.rq })

/-! ## The machine: beats, moves, reset -/

/-- When the beats taken and the beat offered next are a command, the step is that command's meaning, with the
beat moved from the script to CB and DEC idle (60_exceptions.md R126). -/
def Obligations.StepRunsTheDecodedCommand : Prop :=
  ∀ (s : State) (v : Beat) (rest : List HostMove) (i : Instr), s.fault = false → s.seq = .idle →
    s.script = .send v :: rest →
    (s.dec = .idle → decode s.cfg [v] = .ok i →
      step s = exec i { s with script := rest, sent := s.sent ++ [v] })
    ∧ ∀ opc buf, s.dec = .collect opc 1 buf → decode s.cfg (headerBeat opc 0 :: (buf ++ [v])) = .ok i →
      step s = exec i { s with dec := .idle, script := rest, sent := s.sent ++ [v] }

/-- A command placed by withFetchWord is run by the very next step (the model's placing of a program, log 9). -/
def Obligations.PlacedTableWordIsRunNext : Prop :=
  ∀ (s : State) (nbits w : Nat) (i : Instr), s.fault = false →
    decode s.cfg (tableBeats s.cfg nbits w) = .ok i →
    ∃ v, step (s.withFetchWord nbits w) =
      exec i { s with dec := .idle, seq := .idle, sent := s.sent ++ [v] }

/-- The beats of commands of the instance, offered in order at a command boundary of an engine that is not
faulted, are taken one a step and perform the commands one after another, each once, in order
(20_memory.md R52; 60_exceptions.md R126). It counts on progress while the host accepts nothing: RQ has no bound in
the model, and the hold of a full queue (20_memory.md R45) is left out (log 11). -/
def Obligations.CommandStreamRunsInOrder : Prop :=
  ∀ (is : List Instr) (s : State) (rest : List HostMove), s.fault = false → s.dec = .idle → s.seq = .idle →
    (∀ i ∈ is, i.wellFormed s.cfg = true) →
    s.script = (is.flatMap encode).map HostMove.send ++ rest →
    ∃ t : State,
      execAll is { s with script := rest, sent := s.sent ++ is.flatMap encode } = .next t
      ∧ Host.Core.run Sys2Proof.core (is.flatMap encode).length s = .next t
      ∧ t.fault = false ∧ t.dec = .idle ∧ t.seq = .idle ∧ t.script = rest

/-- From PRIME(k) with no move of the host, k steps of the machine make k discarded steps of the recurrence, set
SEEDED, answer OK once and leave SEQ idle (41_seeding.md R103; the rows of the table for one seed command). -/
def Obligations.SequencerPrimesThenAnswers : Prop :=
  ∀ (s : State) (k : Nat) (opc : Opcode) (g : Gen), s.seq = .prime k opc → 1 ≤ k → s.gen = some g →
    s.script = [] →
    Host.Core.run Sys2Proof.core k s = .next { s with
      gen := some (runSteps s.cfg k g).1
      seeded := true
      seq := .idle
      rq := s.rq ++ responseBeats .ok opc.code [] }

/-- Reset, in any state, clears SEEDED, FAULT, DEC, SEQ and RQ and leaves the lanes and the carry without value;
the configuration stays (70_reset_and_hazards.md R139). The beats that have moved stay in CB and RB (R143,
20_memory.md R38, and the model's choice of log 23). -/
def Obligations.ResetClearsTheEngine : Prop :=
  ∀ (s : State) (rest : List HostMove), s.script = .reset :: rest →
    step s = .next { s with
      gen := none, seeded := false, fault := false, dec := .idle, seq := .idle, rq := [], script := rest }

/-- The product instance after reset: lanes and carry without value, SEEDED and FAULT 0, DEC and SEQ idle, RQ
empty, STATUS 0 (10_state.md R31), and W = 64, L = 3 (00_scope.md R2). -/
def Obligations.StateAfterReset : Prop :=
  State.reset.gen = none ∧ State.reset.seeded = false ∧ State.reset.fault = false
  ∧ State.reset.dec = .idle ∧ State.reset.seq = .idle ∧ State.reset.rq = []
  ∧ statusRegister State.reset = 0
  ∧ configBlock State.reset.cfg = configBlock Config.product.params
  ∧ State.reset.cfg.width = .w64 ∧ State.reset.cfg.lag = 3 ∧ State.reset.cfg.perm = .indices 2 1 0

/-- A host ready for a response beat gets the oldest one of RQ, and nothing moves when RQ is empty; nothing else
changes (20_memory.md R37). -/
def Obligations.AcceptMovesTheOldestBeat : Prop :=
  ∀ (s : State) (rest : List HostMove), s.script = .accept :: rest →
    (∀ b q, s.rq = b :: q →
      step s = .next { s with rq := q, received := s.received ++ [b], script := rest })
    ∧ (s.rq = [] → step s = .next { s with script := rest })

/-- No response beat is dropped, duplicated, changed or reordered: the beats that have moved followed by those
queued only grow at the end, in every step but a reset (20_memory.md R48). -/
def Obligations.NoResponseBeatIsLost : Prop :=
  ∀ s t : State, step s = .next t → s.script.head? ≠ some .reset →
    ∃ rs, t.received ++ t.rq = s.received ++ s.rq ++ rs

/-- The machine stops exactly when the host has no move left and SEQ is idle; then, and only then, the engine has
no move (20_memory.md R39, R44; the model's rendering of "stuck", log 8). It never refuses. It counts on progress
while the host accepts nothing: RQ has no bound in the model, and the hold of a full queue (20_memory.md R45) is
left out (log 11). -/
def Obligations.StuckExactlyWithoutHostMoves : Prop :=
  ∀ s : State,
    (step s = .fault .awaitingHost ↔ s.script = [] ∧ s.seq = .idle)
    ∧ (¬(s.script = [] ∧ s.seq = .idle) → ∃ t, step s = .next t)

/-- Every step keeps the invariant: lanes and carry of the instance's size and width, present exactly when the flags
say so, DEC and SEQ in their ranges, RQ framed. -/
def Obligations.EveryStepKeepsCoherence : Prop :=
  ∀ s t : State, s.coherent = true → step s = .next t → t.coherent = true

/-- The invariant holds of every instance after reset. -/
def Obligations.ResetStatesAreCoherent : Prop :=
  State.reset.coherent = true ∧ ∀ c : LegalConfig, (State.ofConfig c).coherent = true

/-- FAULT and SEEDED, once 1, stay 1 through every step but a reset, and a reset clears both
(10_state.md R22, R23). -/
def Obligations.OnlyResetClearsTheFlags : Prop :=
  ∀ s t : State, step s = .next t →
    (s.script.head? = some .reset → t.seeded = false ∧ t.fault = false)
    ∧ (s.script.head? ≠ some .reset →
        (s.seeded = true → t.seeded = true) ∧ (s.fault = true → t.fault = true))

/-- No step changes the configuration (10_state.md R30). -/
def Obligations.NoStepChangesTheConfiguration : Prop :=
  ∀ s t : State, step s = .next t → t.config = s.config

/-- A carry below M stays below M in every step other than one that takes the last payload beat of a LOAD_STATE
(10_state.md R19: after any number of steps from a seeded state the carry is at most M - 1). -/
def Obligations.CarryStaysBelowTheMultiplier : Prop :=
  ∀ s t : State, s.coherent = true → s.carryBelow = true → ¬s.completesLoad → step s = .next t →
    t.carryBelow = true

/-- A beat moves at a rising edge only where valid and ready of its channel are both 1; while rst is 1 none moves
and both channels are silent; while rst is 0 the response channel offers the oldest beat of RQ. An edge adds to CB
the command beat that moves there and to RB the response beat that moves there, and nothing else
(20_memory.md R37, R38; 70_reset_and_hazards.md R138). Model's choices: cmd_ready is 1 whenever rst is 0 and SEQ is
idle (log 17), whatever RQ holds (log 11), a queued response beat is offered at once, where the spec sets no bound
(log 17), and a reset leaves CB and RB (log 23). -/
def Obligations.HandshakeMovesBeats : Prop :=
  ∀ (p : HostPins) (s : State),
    (commandMoves p s = true ↔ p.cmdValid = true ∧ (enginePins p.rst s).cmdReady = true)
    ∧ (responseMoves p s = true ↔ p.rspReady = true ∧ (enginePins p.rst s).rsp ≠ none)
    ∧ (p.rst = true → (enginePins p.rst s).cmdReady = false ∧ (enginePins p.rst s).rsp = none
        ∧ commandMoves p s = false ∧ responseMoves p s = false)
    ∧ (s.seq ≠ .idle → (enginePins p.rst s).cmdReady = false)
    ∧ (p.rst = false → s.seq = .idle → (enginePins p.rst s).cmdReady = true)
    ∧ (p.rst = false → (enginePins p.rst s).rsp = s.rq.head?)
    ∧ ∃ t, clockEdge p s = .next t
        ∧ t.sent = s.sent ++ (if commandMoves p s then [p.cmdData] else [])
        ∧ t.received = s.received ++ (if responseMoves p s then s.rq.head?.toList else [])

/-- A rising edge is the run of the host's moves that land at it: what the step makes of a script is what the ports
make of the pins. While SEQ is in PRIME and rst is 0, the run ends with one transition of the sequencer, whatever
the host offers: a step of the recurrence, and after the last one SEEDED and IDLE (20_memory.md R37, R38;
41_seeding.md R103; no hold of a full RQ, log 11; both channels served at once, log 17). -/
def Obligations.ClockEdgeIsARunOfMoves : Prop :=
  ∀ (p : HostPins) (s : State), s.script = [] →
    (p.rst = true ∨ s.seq = .idle →
      clockEdge p s =
        Host.Core.run Sys2Proof.core (edgeMoves p s).length { s with script := edgeMoves p s })
    ∧ ∀ k opc, p.rst = false → s.seq = .prime k opc →
        clockEdge p s =
            Host.Core.run Sys2Proof.core ((edgeMoves p s).length + 1) { s with script := edgeMoves p s }
          ∧ ∀ g, s.gen = some g →
              ∃ t, clockEdge p s = .next t ∧ t.gen = some (stepFn s.cfg g).gen ∧ t.sent = s.sent
                ∧ (2 ≤ k → t.seq = .prime (k - 1) opc ∧ t.seeded = s.seeded)
                ∧ (k ≤ 1 → t.seq = .idle ∧ t.seeded = true)

/-- The end of a run, clause by clause: the host has no command beat left, DEC and SEQ are idle, RQ is empty. What
is observed then is the response sequence and the final lanes, carry, SEEDED and FAULT, and no step but a reset
changes it (70_reset_and_hazards.md R151). -/
def Obligations.RunsEndWithTheirObservation : Prop :=
  ∀ s : State,
    (s.runOver = true ↔ (∀ v, HostMove.send v ∉ s.script) ∧ s.dec = .idle ∧ s.seq = .idle ∧ s.rq = [])
    ∧ s.observation.responses = s.received ∧ s.observation.gen = s.gen
    ∧ s.observation.seeded = s.seeded ∧ s.observation.fault = s.fault
    ∧ ∀ t, s.runOver = true → s.script.head? ≠ some .reset → step s = .next t →
        t.runOver = true ∧ t.observation = s.observation

/-! ## Configuration and assembler -/

/-- A configuration is accepted exactly when it meets the constraints of 00_scope.md R6 and R7 (with the pairing
that 40_engine.md R82 fixes for W = 32 and 64, log 4); every other is refused. -/
def Obligations.IllegalConfigurationsAreRefused : Prop :=
  ∀ cfg : Config,
    let meets : Prop :=
      2 ≤ cfg.lag ∧ cfg.lag ≤ 16 ∧ 7 ≤ cfg.mult.toNat ∧ cfg.mult.toNat ≤ 2 ^ cfg.width.bits - 1
      ∧ (cfg.batchN = 4 ∨ cfg.batchN = 6)
      ∧ cfg.carryOr.toNat % 2 = 1 ∧ cfg.carryOr.toNat < 2 ^ cfg.width.bits
      ∧ cfg.carryMask.toNat < 2 ^ cfg.width.bits
      ∧ (cfg.carryMask.toNat ||| cfg.carryOr.toNat) ≤ cfg.mult.toNat - 2
      ∧ 2 ≤ cfg.oldShift ∧ cfg.oldShift ≤ cfg.width.bits - 1
      ∧ cfg.defaultLane.toNat < 2 ^ cfg.width.bits ∧ cfg.defaultLane.toNat ≠ 0
      ∧ cfg.defaultLane.toNat ≠ 2 ^ cfg.width.bits - 1
      ∧ 1 ≤ cfg.defaultCarry.toNat ∧ cfg.defaultCarry.toNat ≤ cfg.mult.toNat - 2
      ∧ (match cfg.perm with
          | .indices pa pb pc =>
            pa < cfg.lag ∧ pb < cfg.lag ∧ pc < cfg.lag
            ∧ ((cfg.width = .w32 ∨ cfg.width = .w64) →
                pa = cfg.lag - 1 ∧ pb = cfg.lag - 2 ∧ pc = 0)
          | .openFn _ => cfg.width = .w8 ∨ cfg.width = .w16)
    (meets → ∃ c, LegalConfig.ofConfig cfg = some c ∧ c.params = cfg)
    ∧ (¬meets → LegalConfig.ofConfig cfg = none)

/-- The line of a command, its numbers decimal or hexadecimal, with or without a comment, assembles to the encoding
of that command when the instance has it with these operands, and is refused otherwise; the line `.beat v`
assembles to the beat v when v is below `2^64`, and is refused otherwise (30_encoding.md R76, R77). -/
def Obligations.CommandTextsAssemble : Prop :=
  ∀ (c : LegalConfig) (base : NumberBase) (comment : List Char),
    (∀ i : Instr,
      let beats := if i.wellFormed c.params then some (encode i) else none
      assembleLine c.params (String.ofList (commandText base i)) = beats
      ∧ assembleLine c.params (String.ofList (commandText base i ++ ';' :: comment)) = beats)
    ∧ ∀ v : Nat,
      let beats := if v < 2 ^ 64 then some [BitVec.ofNat 64 v] else none
      assembleLine c.params (String.ofList (beatText base v)) = beats
      ∧ assembleLine c.params (String.ofList (beatText base v ++ ';' :: comment)) = beats

/-- What a line reads as decides its beats: a command of the instance gives its encoding, which decodes to it, another
command none; a raw beat in range gives that beat; a line without a command gives no beats (log 21); an unreadable
line is refused (30_encoding.md R76, R77). -/
def Obligations.AssembledLinesDecode : Prop :=
  ∀ (c : LegalConfig) (line : String),
    match parseLine c.params line.toList with
    | none => assembleLine c.params line = none
    | some none => assembleLine c.params line = some []
    | some (some (.beat v)) =>
      assembleLine c.params line = if v < 2 ^ 64 then some [BitVec.ofNat 64 v] else none
    | some (some (.command i)) =>
      (i.wellFormed c.params = true →
        assembleLine c.params line = some (encode i) ∧ decode c.params (encode i) = .ok i)
      ∧ (i.wellFormed c.params = false → assembleLine c.params line = none)
end

