-- ==== Sys2Proof/Laws/Assembler.lean ====
section
/-! SUPPORT. What the assembler's readers give on the texts of numbers, bytes and operand lists. -/

namespace Sys2Proof.Machine

/-- A character that ends no part of a line. -/
def isPlain (c : Char) : Bool := !isBlank c && c != ';' && c != ','

/-! ## Digits -/

theorem digitValue_digitChar {b d : Nat} (hb : b ≤ 16) (hd : d < b) :
    digitValue b (Nat.digitChar d) = some d := by
  have h16 : ∀ e < 16, digitValue 16 (Nat.digitChar e) = some e := by decide
  have h := h16 d (by omega)
  unfold digitValue at h ⊢
  obtain ⟨hv, -⟩ := Option.filter_eq_some_iff.1 h
  exact Option.filter_eq_some_iff.2 ⟨hv, by simpa using hd⟩

theorem isPlain_digitChar {d : Nat} (hd : d < 16) : isPlain (Nat.digitChar d) = true := by
  have h : ∀ e < 16, isPlain (Nat.digitChar e) = true := by decide
  exact h d hd

theorem exists_digit_of_mem_toDigits {b : Nat} (hb : 1 < b) (n : Nat) {c : Char}
    (h : c ∈ Nat.toDigits b n) : ∃ d < b, c = Nat.digitChar d := by
  induction n using Nat.strongRecOn with
  | ind n ih =>
    rw [Nat.toDigits_eq_if hb] at h
    split at h
    · exact ⟨n, by assumption, by simpa using h⟩
    · rcases List.mem_append.1 h with h | h
      · exact ih _ (Nat.div_lt_self (by omega) hb) h
      · exact ⟨n % b, Nat.mod_lt _ (by omega), by simpa using h⟩

theorem digitsValue_append (b acc : Nat) (ds : List Char) (c : Char) :
    digitsValue b acc (ds ++ [c]) =
      (digitsValue b acc ds).bind fun a => (digitValue b c).map fun d => a * b + d := by
  induction ds generalizing acc with
  | nil => cases h : digitValue b c <;> simp [digitsValue, h]
  | cons x xs ih => cases h : digitValue b x <;> simp [digitsValue, h, ih]

theorem digitsValue_toDigits {b : Nat} (h1 : 1 < b) (h16 : b ≤ 16) (n : Nat) :
    digitsValue b 0 (Nat.toDigits b n) = some n := by
  induction n using Nat.strongRecOn with
  | ind n ih =>
    rw [Nat.toDigits_eq_if h1]
    split
    · simp [digitsValue, digitValue_digitChar h16 (by assumption)]
    · rw [digitsValue_append, ih _ (Nat.div_lt_self (by omega) h1)]
      simp [digitValue_digitChar h16 (Nat.mod_lt n (by omega : 0 < b)), Nat.div_add_mod']

/-! ## Numbers and bytes -/

/-- Reading the text of a number gives the number, in either base (30_encoding.md R76). -/
theorem parseNumber_numberText (base : NumberBase) (n : Nat) :
    parseNumber (numberText base n) = some n := by
  cases base with
  | hexadecimal =>
    simp [numberText, parseNumber, digitsValue_toDigits (b := 16) (by decide) (by decide)]
  | decimal =>
    have hmem := fun c => exists_digit_of_mem_toDigits (b := 10) (by decide) n (c := c)
    have hne : Nat.toDigits 10 n ≠ [] := Nat.toDigits_ne_nil
    have hv := digitsValue_toDigits (b := 10) (by decide) (by decide) n
    unfold numberText parseNumber
    dsimp only
    split
    · rename_i ds heq
      obtain ⟨d, hd, hx⟩ := hmem 'x' (by simp [heq])
      have hnot : ∀ e < 10, 'x' ≠ Nat.digitChar e := by decide
      exact absurd hx (hnot d hd)
    · simp [hne, hv]

theorem isPlain_numberText (base : NumberBase) (n : Nat) : (numberText base n).all isPlain = true := by
  rw [List.all_eq_true]
  intro c hc
  cases base with
  | decimal =>
    obtain ⟨d, hd, rfl⟩ := exists_digit_of_mem_toDigits (by decide) n hc
    exact isPlain_digitChar (by omega)
  | hexadecimal =>
    simp only [numberText, List.mem_cons] at hc
    rcases hc with rfl | rfl | hc
    · decide
    · decide
    · obtain ⟨d, hd, rfl⟩ := exists_digit_of_mem_toDigits (by decide) n hc
      exact isPlain_digitChar hd

theorem numberText_ne_nil (base : NumberBase) (n : Nat) : numberText base n ≠ [] := by
  cases base with
  | decimal => exact Nat.toDigits_ne_nil
  | hexadecimal => simp [numberText]

/-- Reading two digits for each byte gives the bytes (30_encoding.md R76). -/
theorem parseHexBytes_byteText (bytes : List Byte) :
    parseHexBytes (bytes.flatMap byteText) = some bytes := by
  induction bytes with
  | nil => rfl
  | cons b bs ih =>
    have hb := b.isLt
    have h1 := digitValue_digitChar (b := 16) (d := b.toNat / 16) (by decide) (by omega)
    have h2 := digitValue_digitChar (b := 16) (d := b.toNat % 16) (by decide) (by omega)
    have hv : BitVec.ofNat 8 (16 * (b.toNat / 16) + b.toNat % 16) = b := by
      rw [Nat.div_add_mod]
      simp
    simp [byteText, parseHexBytes, h1, h2, ih, hv]

theorem isPlain_byteText (bytes : List Byte) : (bytes.flatMap byteText).all isPlain = true := by
  rw [List.all_eq_true]
  intro c hc
  obtain ⟨b, -, hc⟩ := List.mem_flatMap.1 hc
  have hb := b.isLt
  simp only [byteText, List.mem_cons, List.not_mem_nil, or_false] at hc
  rcases hc with rfl | rfl <;> exact isPlain_digitChar (by omega)

/-! ## Lines -/

theorem isPlain_opcodeText (opc : Opcode) : (opcodeText opc).all isPlain = true := by
  cases opc <;> decide

/-- The opcodes' mnemonics are different: looking one up gives its opcode. -/
theorem find_opcodeText (opc : Opcode) :
    (Opcode.all.find? fun o => opcodeText o == opcodeText opc) = some opc := by
  cases opc <;> decide

theorem not_isBlank_of_isPlain {c : Char} (h : isPlain c = true) : isBlank c = false := by
  cases hb : isBlank c
  · rfl
  · simp [isPlain, hb] at h

/-- Trimming keeps a text whose ends are not blank. -/
theorem trimBlanks_of_ends {cs : List Char} (hf : ∀ c, cs.head? = some c → isBlank c = false)
    (hl : ∀ c, cs.getLast? = some c → isBlank c = false) : trimBlanks cs = cs := by
  have keep : ∀ ds : List Char, (∀ c, ds.head? = some c → isBlank c = false) →
      ds.dropWhile isBlank = ds := by
    intro ds h
    cases ds with
    | nil => rfl
    | cons d ds => simp [h d rfl]
  rw [trimBlanks, keep cs hf, keep cs.reverse (by simpa using hl), List.reverse_reverse]

theorem trimBlanks_of_isPlain {cs : List Char} (h : cs.all isPlain = true) : trimBlanks cs = cs := by
  rw [List.all_eq_true] at h
  exact trimBlanks_of_ends (fun c hc => not_isBlank_of_isPlain (h c (List.mem_of_head? hc)))
    (fun c hc => not_isBlank_of_isPlain (h c (List.mem_of_getLast? hc)))

theorem trimBlanks_blank_cons (cs : List Char) : trimBlanks (' ' :: cs) = trimBlanks cs := by
  simp [trimBlanks, isBlank]

/-- Splitting a list of operands at its commas and trimming gives the operands. -/
theorem splitOn_operands {ops : List (List Char)} (hne : ops ≠ [])
    (h : ∀ op ∈ ops, op.all isPlain = true) :
    (([',', ' '].intercalate ops).splitOn ',').map trimBlanks = ops := by
  have noComma : ∀ pre op : List Char, pre.all isBlank = true → op.all isPlain = true →
      ∀ c ∈ pre ++ op, (c == ',') = false := by
    intro pre op hpre hop c hc
    rw [beq_eq_false_iff_ne]
    rintro rfl
    rcases List.mem_append.1 hc with hc | hc
    · exact absurd (List.all_eq_true.1 hpre _ hc) (by decide)
    · exact absurd (List.all_eq_true.1 hop _ hc) (by decide)
  have key : ∀ (pre op : List Char) (ops : List (List Char)), pre.all isBlank = true →
      (∀ o ∈ op :: ops, o.all isPlain = true) → trimBlanks (pre ++ op) = op →
      ((pre ++ [',', ' '].intercalate (op :: ops)).splitOn ',').map trimBlanks = op :: ops := by
    intro pre op ops
    induction ops generalizing pre op with
    | nil =>
      intro hpre hplain htrim
      have hp := noComma pre op hpre (hplain op (by simp))
      rw [List.intercalate_singleton, List.splitOn_eq_singleton_of_beq_eq_false hp]
      simp [htrim]
    | cons op' ops ih =>
      intro hpre hplain htrim
      have hp := noComma pre op hpre (hplain op (by simp))
      have e : pre ++ [',', ' '].intercalate (op :: op' :: ops)
          = (pre ++ op) ++ ',' :: ([' '] ++ [',', ' '].intercalate (op' :: ops)) := by
        simp [List.intercalate_cons_cons]
      rw [e, List.splitOn_eq_splitOnP, List.splitOnP_append_cons_of_forall_mem hp ',' (by decide),
        ← List.splitOn_eq_splitOnP, List.map_cons, htrim]
      have ht : trimBlanks ([' '] ++ op') = op' := by
        rw [List.singleton_append, trimBlanks_blank_cons, trimBlanks_of_isPlain (hplain op' (by simp))]
      rw [ih [' '] op' (by decide) (fun o ho => hplain o (by simp at ho ⊢; tauto)) ht]
  cases ops with
  | nil => exact absurd rfl hne
  | cons op ops =>
    simpa using key [] op ops rfl h (by simpa using trimBlanks_of_isPlain (h op (by simp)))

/-- Joined operands, none of them empty, begin and end with characters that are not blank. -/
theorem intercalate_ends {ops : List (List Char)} (hne : ops ≠ [])
    (h : ∀ op ∈ ops, op.all isPlain = true ∧ op ≠ []) :
    [',', ' '].intercalate ops ≠ []
      ∧ (∀ c, ([',', ' '].intercalate ops).head? = some c → isBlank c = false)
      ∧ ∀ c, ([',', ' '].intercalate ops).getLast? = some c → isBlank c = false := by
  induction ops with
  | nil => exact absurd rfl hne
  | cons op ops ih =>
    obtain ⟨hplain, hop⟩ := h op (by simp)
    have hb : ∀ c ∈ op, isBlank c = false := fun c hc =>
      not_isBlank_of_isPlain (List.all_eq_true.1 hplain c hc)
    cases ops with
    | nil =>
      rw [List.intercalate_singleton]
      exact ⟨hop, fun c hc => hb c (List.mem_of_head? hc), fun c hc => hb c (List.mem_of_getLast? hc)⟩
    | cons op' ops =>
      obtain ⟨hne', -, hlast⟩ := ih (by simp) fun o ho => h o (List.mem_cons_of_mem _ ho)
      obtain ⟨x, xs, rfl⟩ := List.exists_cons_of_ne_nil hop
      rw [List.intercalate_cons_cons]
      refine ⟨by simp, fun c hc => ?_, fun c hc => ?_⟩
      · obtain rfl : x = c := by simpa using hc
        exact hb x (by simp)
      · rw [List.getLast?_append, List.getLast?_eq_some_getLast hne'] at hc
        exact hlast c (by rw [List.getLast?_eq_some_getLast hne']; simpa using hc)

/-- A line has no blank at its ends. -/
theorem trimBlanks_lineText {name : List Char} {ops : List (List Char)} (hn : name ≠ [])
    (hp : name.all isPlain = true) (h : ∀ op ∈ ops, op.all isPlain = true ∧ op ≠ []) :
    trimBlanks (lineText name ops) = lineText name ops := by
  have hb : ∀ c ∈ name, isBlank c = false := fun c hc =>
    not_isBlank_of_isPlain (List.all_eq_true.1 hp c hc)
  cases ops with
  | nil => exact trimBlanks_of_isPlain hp
  | cons op ops =>
    obtain ⟨hne, -, hlast⟩ := intercalate_ends (by simp) h
    obtain ⟨x, xs, rfl⟩ := List.exists_cons_of_ne_nil hn
    simp only [lineText, List.isEmpty_cons, Bool.false_eq_true, if_false]
    refine trimBlanks_of_ends (fun c hc => ?_) (fun c hc => ?_)
    · obtain rfl : x = c := by simpa using hc
      exact hb x (by simp)
    · rw [List.getLast?_append, List.getLast?_cons, List.getLast?_eq_some_getLast hne] at hc
      exact hlast c (by rw [List.getLast?_eq_some_getLast hne]; simpa using hc)

/-- A line holds no semicolon, so a comment starts where it is put. -/
theorem lineText_ne_semicolon {name : List Char} {ops : List (List Char)}
    (hp : name.all isPlain = true) (h : ∀ op ∈ ops, op.all isPlain = true) :
    ∀ c ∈ lineText name ops, (c != ';') = true := by
  have hs : ∀ cs : List Char, cs.all isPlain = true → ∀ c ∈ cs, (c != ';') = true := by
    intro cs hcs c hc
    have := List.all_eq_true.1 hcs c hc
    simp only [isPlain, Bool.and_eq_true] at this
    exact this.1.2
  have hops : ∀ c ∈ [',', ' '].intercalate ops, (c != ';') = true := by
    induction ops with
    | nil => simp
    | cons op ops ih =>
      cases ops with
      | nil => simpa using hs op (h op (by simp))
      | cons op' ops =>
        intro c hc
        rw [List.intercalate_cons_cons, List.mem_append, List.mem_append] at hc
        rcases hc with (hc | hc) | hc
        · exact hs op (h op (by simp)) c hc
        · have hc' : c = ',' ∨ c = ' ' := by simpa using hc
          rcases hc' with hc' | hc' <;> rw [hc'] <;> decide
        · exact ih (fun o ho => h o (List.mem_cons_of_mem _ ho)) c hc
  intro c hc
  unfold lineText at hc
  split at hc
  · exact hs name hp c hc
  · rcases List.mem_append.1 hc with hc | hc
    · exact hs name hp c hc
    · rcases List.mem_cons.1 hc with rfl | hc
      · decide
      · exact hops c hc

/-- Dropping the comment of a line leaves the line. -/
theorem takeWhile_comment {cs : List Char} (h : ∀ c ∈ cs, (c != ';') = true) (comment : List Char) :
    (cs ++ ';' :: comment).takeWhile (· != ';') = cs := by
  induction cs with
  | nil => simp
  | cons x xs ih =>
    simp only [List.cons_append, List.takeWhile_cons, h x (by simp), if_true,
      ih fun c hc => h c (List.mem_cons_of_mem _ hc)]

/-- All that reading a line with a name and operands, none of them empty, can give. -/
theorem parseLine_lineText (cfg : Config) {name : List Char} {ops : List (List Char)} (hn : name ≠ [])
    (hp : name.all isPlain = true) (h : ∀ op ∈ ops, op.all isPlain = true ∧ op ≠ [])
    {line : List Char} (hl : line.takeWhile (· != ';') = lineText name ops) :
    parseLine cfg line = (parseNamed cfg name ops).map some := by
  have hb : ∀ c ∈ name, (!isBlank c) = true := fun c hc => by
    rw [not_isBlank_of_isPlain (List.all_eq_true.1 hp c hc)]; rfl
  have hne : (lineText name ops).isEmpty = false := by
    obtain ⟨x, xs, rfl⟩ := List.exists_cons_of_ne_nil hn
    unfold lineText
    split <;> rfl
  have hname : (lineText name ops).takeWhile (fun c => !isBlank c) = name := by
    unfold lineText
    split
    · exact List.takeWhile_eq_self_iff.2 hb
    · rw [List.takeWhile_append_of_pos hb]
      simp [isBlank]
  have hops : (if (trimBlanks ((lineText name ops).dropWhile fun c => !isBlank c)).isEmpty then []
      else ((trimBlanks ((lineText name ops).dropWhile fun c => !isBlank c)).splitOn ',').map trimBlanks)
      = ops := by
    cases ops with
    | nil =>
      have hd : (lineText name []).dropWhile (fun c => !isBlank c) = [] :=
        List.dropWhile_eq_nil_iff.2 hb
      rw [hd]
      rfl
    | cons op ops =>
      obtain ⟨hi, hfirst, hlast⟩ := intercalate_ends (by simp) h
      have hd : (lineText name (op :: ops)).dropWhile (fun c => !isBlank c)
          = ' ' :: [',', ' '].intercalate (op :: ops) := by
        simp only [lineText, List.isEmpty_cons, Bool.false_eq_true, if_false]
        rw [List.dropWhile_append_of_pos hb]
        simp [isBlank]
      rw [hd, trimBlanks_blank_cons, trimBlanks_of_ends hfirst hlast, if_neg (by simpa using hi)]
      exact splitOn_operands (by simp) fun o ho => (h o ho).1
  unfold parseLine
  simp only [hl, trimBlanks_lineText hn hp h, hne, hname, hops]
  rfl

end Sys2Proof.Machine
end

