-- ==== Sys2Proof/Laws/State.lean ====
section
/-! SUPPORT. One lemma for each field of State after each update of it, so that no proof unfolds an update. -/

namespace Sys2Proof.Machine

@[simp] theorem State.respond_config (s : State) (code : StatusCode) (opce : BitVec 8) (data : List Beat) : (s.respond code opce data).config = s.config := rfl
@[simp] theorem State.respond_gen (s : State) (code : StatusCode) (opce : BitVec 8) (data : List Beat) : (s.respond code opce data).gen = s.gen := rfl
@[simp] theorem State.respond_seeded (s : State) (code : StatusCode) (opce : BitVec 8) (data : List Beat) : (s.respond code opce data).seeded = s.seeded := rfl
@[simp] theorem State.respond_fault (s : State) (code : StatusCode) (opce : BitVec 8) (data : List Beat) : (s.respond code opce data).fault = s.fault := rfl
@[simp] theorem State.respond_dec (s : State) (code : StatusCode) (opce : BitVec 8) (data : List Beat) : (s.respond code opce data).dec = s.dec := rfl
@[simp] theorem State.respond_seq (s : State) (code : StatusCode) (opce : BitVec 8) (data : List Beat) : (s.respond code opce data).seq = s.seq := rfl
@[simp] theorem State.respond_rq (s : State) (code : StatusCode) (opce : BitVec 8) (data : List Beat) : (s.respond code opce data).rq = s.rq ++ responseBeats code opce data := rfl
@[simp] theorem State.respond_script (s : State) (code : StatusCode) (opce : BitVec 8) (data : List Beat) : (s.respond code opce data).script = s.script := rfl
@[simp] theorem State.respond_sent (s : State) (code : StatusCode) (opce : BitVec 8) (data : List Beat) : (s.respond code opce data).sent = s.sent := rfl
@[simp] theorem State.respond_received (s : State) (code : StatusCode) (opce : BitVec 8) (data : List Beat) : (s.respond code opce data).received = s.received := rfl

@[simp] theorem State.raiseIllegal_config (s : State) (opce : BitVec 8) : (s.raiseIllegal opce).config = s.config := rfl
@[simp] theorem State.raiseIllegal_gen (s : State) (opce : BitVec 8) : (s.raiseIllegal opce).gen = s.gen := rfl
@[simp] theorem State.raiseIllegal_seeded (s : State) (opce : BitVec 8) : (s.raiseIllegal opce).seeded = s.seeded := rfl
@[simp] theorem State.raiseIllegal_fault (s : State) (opce : BitVec 8) : (s.raiseIllegal opce).fault = true := rfl
@[simp] theorem State.raiseIllegal_dec (s : State) (opce : BitVec 8) : (s.raiseIllegal opce).dec = s.dec := rfl
@[simp] theorem State.raiseIllegal_seq (s : State) (opce : BitVec 8) : (s.raiseIllegal opce).seq = s.seq := rfl
@[simp] theorem State.raiseIllegal_rq (s : State) (opce : BitVec 8) : (s.raiseIllegal opce).rq = s.rq ++ responseBeats .errIllegal opce [] := rfl
@[simp] theorem State.raiseIllegal_script (s : State) (opce : BitVec 8) : (s.raiseIllegal opce).script = s.script := rfl
@[simp] theorem State.raiseIllegal_sent (s : State) (opce : BitVec 8) : (s.raiseIllegal opce).sent = s.sent := rfl
@[simp] theorem State.raiseIllegal_received (s : State) (opce : BitVec 8) : (s.raiseIllegal opce).received = s.received := rfl

@[simp] theorem State.raiseFaulted_config (s : State) (opce : BitVec 8) : (s.raiseFaulted opce).config = s.config := rfl
@[simp] theorem State.raiseFaulted_gen (s : State) (opce : BitVec 8) : (s.raiseFaulted opce).gen = s.gen := rfl
@[simp] theorem State.raiseFaulted_seeded (s : State) (opce : BitVec 8) : (s.raiseFaulted opce).seeded = s.seeded := rfl
@[simp] theorem State.raiseFaulted_fault (s : State) (opce : BitVec 8) : (s.raiseFaulted opce).fault = s.fault := rfl
@[simp] theorem State.raiseFaulted_dec (s : State) (opce : BitVec 8) : (s.raiseFaulted opce).dec = s.dec := rfl
@[simp] theorem State.raiseFaulted_seq (s : State) (opce : BitVec 8) : (s.raiseFaulted opce).seq = s.seq := rfl
@[simp] theorem State.raiseFaulted_rq (s : State) (opce : BitVec 8) : (s.raiseFaulted opce).rq = s.rq ++ responseBeats .errFaulted opce [] := rfl
@[simp] theorem State.raiseFaulted_script (s : State) (opce : BitVec 8) : (s.raiseFaulted opce).script = s.script := rfl
@[simp] theorem State.raiseFaulted_sent (s : State) (opce : BitVec 8) : (s.raiseFaulted opce).sent = s.sent := rfl
@[simp] theorem State.raiseFaulted_received (s : State) (opce : BitVec 8) : (s.raiseFaulted opce).received = s.received := rfl

@[simp] theorem State.raiseUnseeded_config (s : State) (opc : Opcode) : (s.raiseUnseeded opc).config = s.config := rfl
@[simp] theorem State.raiseUnseeded_gen (s : State) (opc : Opcode) : (s.raiseUnseeded opc).gen = s.gen := rfl
@[simp] theorem State.raiseUnseeded_seeded (s : State) (opc : Opcode) : (s.raiseUnseeded opc).seeded = s.seeded := rfl
@[simp] theorem State.raiseUnseeded_fault (s : State) (opc : Opcode) : (s.raiseUnseeded opc).fault = s.fault := rfl
@[simp] theorem State.raiseUnseeded_dec (s : State) (opc : Opcode) : (s.raiseUnseeded opc).dec = s.dec := rfl
@[simp] theorem State.raiseUnseeded_seq (s : State) (opc : Opcode) : (s.raiseUnseeded opc).seq = s.seq := rfl
@[simp] theorem State.raiseUnseeded_rq (s : State) (opc : Opcode) : (s.raiseUnseeded opc).rq = s.rq ++ responseBeats .errUnseeded opc.code [] := rfl
@[simp] theorem State.raiseUnseeded_script (s : State) (opc : Opcode) : (s.raiseUnseeded opc).script = s.script := rfl
@[simp] theorem State.raiseUnseeded_sent (s : State) (opc : Opcode) : (s.raiseUnseeded opc).sent = s.sent := rfl
@[simp] theorem State.raiseUnseeded_received (s : State) (opc : Opcode) : (s.raiseUnseeded opc).received = s.received := rfl

@[simp] theorem State.resetEngine_config (s : State) : s.resetEngine.config = s.config := rfl
@[simp] theorem State.resetEngine_gen (s : State) : s.resetEngine.gen = none := rfl
@[simp] theorem State.resetEngine_seeded (s : State) : s.resetEngine.seeded = false := rfl
@[simp] theorem State.resetEngine_fault (s : State) : s.resetEngine.fault = false := rfl
@[simp] theorem State.resetEngine_dec (s : State) : s.resetEngine.dec = .idle := rfl
@[simp] theorem State.resetEngine_seq (s : State) : s.resetEngine.seq = .idle := rfl
@[simp] theorem State.resetEngine_rq (s : State) : s.resetEngine.rq = [] := rfl
@[simp] theorem State.resetEngine_script (s : State) : s.resetEngine.script = s.script := rfl
@[simp] theorem State.resetEngine_sent (s : State) : s.resetEngine.sent = s.sent := rfl
@[simp] theorem State.resetEngine_received (s : State) : s.resetEngine.received = s.received := rfl

@[simp] theorem beginPriming_config (opc : Opcode) (g : Gen) (s : State) : (beginPriming opc g s).config = s.config := rfl
@[simp] theorem beginPriming_gen (opc : Opcode) (g : Gen) (s : State) : (beginPriming opc g s).gen = some g := rfl
@[simp] theorem beginPriming_seeded (opc : Opcode) (g : Gen) (s : State) : (beginPriming opc g s).seeded = s.seeded := rfl
@[simp] theorem beginPriming_fault (opc : Opcode) (g : Gen) (s : State) : (beginPriming opc g s).fault = s.fault := rfl
@[simp] theorem beginPriming_dec (opc : Opcode) (g : Gen) (s : State) : (beginPriming opc g s).dec = s.dec := rfl
@[simp] theorem beginPriming_seq (opc : Opcode) (g : Gen) (s : State) : (beginPriming opc g s).seq = .prime Config.primeCount opc := rfl
@[simp] theorem beginPriming_rq (opc : Opcode) (g : Gen) (s : State) : (beginPriming opc g s).rq = s.rq := rfl
@[simp] theorem beginPriming_script (opc : Opcode) (g : Gen) (s : State) : (beginPriming opc g s).script = s.script := rfl
@[simp] theorem beginPriming_sent (opc : Opcode) (g : Gen) (s : State) : (beginPriming opc g s).sent = s.sent := rfl
@[simp] theorem beginPriming_received (opc : Opcode) (g : Gen) (s : State) : (beginPriming opc g s).received = s.received := rfl

@[simp] theorem State.ofConfig_config (c : LegalConfig) : (State.ofConfig c).config = c := rfl
@[simp] theorem State.ofConfig_gen (c : LegalConfig) : (State.ofConfig c).gen = none := rfl
@[simp] theorem State.ofConfig_seeded (c : LegalConfig) : (State.ofConfig c).seeded = false := rfl
@[simp] theorem State.ofConfig_fault (c : LegalConfig) : (State.ofConfig c).fault = false := rfl
@[simp] theorem State.ofConfig_dec (c : LegalConfig) : (State.ofConfig c).dec = .idle := rfl
@[simp] theorem State.ofConfig_seq (c : LegalConfig) : (State.ofConfig c).seq = .idle := rfl
@[simp] theorem State.ofConfig_rq (c : LegalConfig) : (State.ofConfig c).rq = [] := rfl
@[simp] theorem State.ofConfig_script (c : LegalConfig) : (State.ofConfig c).script = [] := rfl
@[simp] theorem State.ofConfig_sent (c : LegalConfig) : (State.ofConfig c).sent = [] := rfl
@[simp] theorem State.ofConfig_received (c : LegalConfig) : (State.ofConfig c).received = [] := rfl

@[simp] theorem State.acceptBeat_config (s : State) : s.acceptBeat.config = s.config := by
  unfold State.acceptBeat; split <;> rfl
@[simp] theorem State.acceptBeat_gen (s : State) : s.acceptBeat.gen = s.gen := by
  unfold State.acceptBeat; split <;> rfl
@[simp] theorem State.acceptBeat_seeded (s : State) : s.acceptBeat.seeded = s.seeded := by
  unfold State.acceptBeat; split <;> rfl
@[simp] theorem State.acceptBeat_fault (s : State) : s.acceptBeat.fault = s.fault := by
  unfold State.acceptBeat; split <;> rfl
@[simp] theorem State.acceptBeat_dec (s : State) : s.acceptBeat.dec = s.dec := by
  unfold State.acceptBeat; split <;> rfl
@[simp] theorem State.acceptBeat_seq (s : State) : s.acceptBeat.seq = s.seq := by
  unfold State.acceptBeat; split <;> rfl
@[simp] theorem State.acceptBeat_script (s : State) : s.acceptBeat.script = s.script := by
  unfold State.acceptBeat; split <;> rfl
@[simp] theorem State.acceptBeat_sent (s : State) : s.acceptBeat.sent = s.sent := by
  unfold State.acceptBeat; split <;> rfl

/-- An accepted beat moves from RQ to RB: the two together do not change (20_memory.md R48). -/
theorem State.acceptBeat_received_rq (s : State) :
    s.acceptBeat.received ++ s.acceptBeat.rq = s.received ++ s.rq := by
  unfold State.acceptBeat
  split
  · rfl
  · simp_all

end Sys2Proof.Machine
end

