-- ==== Sys2Proof/Laws/Ops.lean ====
section
/-! SUPPORT. What each shared operation can do, said once. -/

namespace Sys2Proof.Machine

/-! ## Widths and wrapping -/

theorem width_bits_le (w : Width) : w.bits ≤ 64 := by cases w <;> decide

theorem width_bits_eq (w : Width) : w.bits = 8 * w.bytes := by cases w <;> rfl

theorem width_bytes_pos (w : Width) : 0 < w.bytes := by cases w <;> decide

theorem two_pow_width_le (w : Width) : 2 ^ w.bits ≤ 2 ^ 64 :=
  Nat.pow_le_pow_right (by decide) (width_bits_le w)

/-- `wrap_W(v)` is `v mod 2^W`. -/
@[simp] theorem toNat_wrap (w : Width) (v : Nat) : (wrap w v).toNat = v % 2 ^ w.bits := by
  have h : v % 2 ^ w.bits < 2 ^ 64 :=
    lt_of_lt_of_le (Nat.mod_lt _ (by positivity)) (two_pow_width_le w)
  simpa [wrap] using h

@[simp] theorem fits_iff (w : Width) (v : Word) : w.fits v = true ↔ v.toNat < 2 ^ w.bits := by
  simp [Width.fits]

theorem fits_wrap (w : Width) (v : Nat) : w.fits (wrap w v) = true := by
  simp [Nat.mod_lt]

/-- Wrapping changes nothing that fits. -/
theorem wrap_toNat_of_fits {w : Width} {v : Word} (h : w.fits v = true) : wrap w v.toNat = v := by
  apply BitVec.eq_of_toNat_eq
  simpa using Nat.mod_eq_of_lt (by simpa using h)

theorem payloadWord_of_fits {w : Width} {v : Word} (h : w.fits v = true) : payloadWord w v = v :=
  wrap_toNat_of_fits h

/-- Every 64-bit value fits in W = 64. -/
theorem fits_w64 (v : Word) : Width.fits .w64 v = true := by
  simpa [Width.bits] using v.isLt

/-- A concatenation as a number: the first part in the high bits (00_scope.md R8, `cat`). -/
theorem toNat_cat {m n : Nat} (x : BitVec m) (y : BitVec n) :
    (x ++ y).toNat = x.toNat * 2 ^ n + y.toNat := by
  rw [BitVec.toNat_append, ← Nat.shiftLeft_add_eq_or_of_lt y.isLt, Nat.shiftLeft_eq]

/-! ## Legal configurations -/

/-- What a legal configuration meets (00_scope.md R6, R7), as numbers. -/
theorem legal_facts (c : LegalConfig) :
    2 ≤ c.params.lag ∧ c.params.lag ≤ 16 ∧ 7 ≤ c.params.mult.toNat
      ∧ c.params.mult.toNat < 2 ^ c.params.width.bits
      ∧ c.params.carryOr.toNat < 2 ^ c.params.width.bits
      ∧ c.params.carryMask.toNat < 2 ^ c.params.width.bits
      ∧ (c.params.carryMask ||| c.params.carryOr).toNat + 2 ≤ c.params.mult.toNat
      ∧ c.params.carryOr.toNat % 2 = 1
      ∧ 2 ≤ c.params.oldShift ∧ c.params.oldShift + 1 ≤ c.params.width.bits
      ∧ c.params.defaultLane.toNat < 2 ^ c.params.width.bits
      ∧ c.params.defaultLane.toNat ≠ 0 ∧ c.params.defaultLane.toNat + 1 ≠ 2 ^ c.params.width.bits
      ∧ 1 ≤ c.params.defaultCarry.toNat ∧ c.params.defaultCarry.toNat + 2 ≤ c.params.mult.toNat
      ∧ (c.params.batchN = 4 ∨ c.params.batchN = 6) := by
  have h := c.isLegal
  simp only [Config.legal, Config.lagLegal, Config.multLegal, Config.batchLegal,
    Config.carryPatternLegal, Config.oldShiftLegal, Config.defaultLaneLegal, Config.defaultCarryLegal,
    Bool.and_eq_true, Bool.or_eq_true, decide_eq_true_eq, fits_iff] at h
  obtain ⟨⟨⟨⟨⟨⟨⟨⟨h1, h2⟩, h3, h4⟩, -⟩, h5⟩, ⟨⟨h6, h7⟩, h8⟩, h9⟩, h10, h11⟩, ⟨h12, h13⟩, h14⟩, h15, h16⟩ := h
  exact ⟨h1, h2, h3, h4, h7, h8, h9, h6, h10, h11, h12, h13, h14, h15, h16, h5⟩

/-- W = 32 and W = 64 have the index pairing `(L-1, L-2, 0)` (40_engine.md R82). -/
theorem perm_wide (c : LegalConfig) (hw : c.params.width = .w32 ∨ c.params.width = .w64) :
    c.params.perm = .indices (c.params.lag - 1) (c.params.lag - 2) 0 := by
  have h := c.isLegal
  simp only [Config.legal, Bool.and_eq_true] at h
  have hp := h.1.1.1.1.1.2
  unfold Config.permLegal at hp
  rcases hw with hw | hw <;> simpa [hw] using hp

/-! ## Responses -/

theorem markLast_map_data (beats : List Beat) : (markLast beats).map RspBeat.data = beats := by
  induction beats with
  | nil => rfl
  | cons b bs ih => cases bs <;> simp_all [markLast]

/-- `rsp_last` is 1 on the last beat only. -/
theorem markLast_last (beats : List Beat) (i : Nat) (h : i < beats.length) :
    ((markLast beats)[i]?.map RspBeat.last) = some (decide (i + 1 = beats.length)) := by
  induction beats generalizing i with
  | nil => simp at h
  | cons b bs ih =>
    cases bs with
    | nil =>
      have hi : i = 0 := by simpa using h
      subst hi; rfl
    | cons b' bs' =>
      cases i with
      | zero => simp [markLast]
      | succ j => simpa [markLast] using ih j (by simpa using h)

theorem responseBeats_ne_nil (code : StatusCode) (opce : BitVec 8) (data : List Beat) :
    responseBeats code opce data ≠ [] := by
  intro h
  simpa [responseBeats, markLast_map_data] using congrArg (List.map RspBeat.data) h

/-- A response ends with a beat whose `rsp_last` is 1. -/
theorem responseBeats_getLast? (code : StatusCode) (opce : BitVec 8) (data : List Beat) :
    ∃ b, (responseBeats code opce data).getLast? = some b ∧ b.last = true := by
  suffices h : ∀ b bs, ∃ x, (markLast (b :: bs)).getLast? = some x ∧ x.last = true from h _ _
  intro b bs
  induction bs generalizing b with
  | nil => exact ⟨⟨b, true⟩, rfl, rfl⟩
  | cons b' bs ih =>
    obtain ⟨x, hx, hl⟩ := ih b'
    exact ⟨x, by simp [markLast, List.getLast?_cons, hx], hl⟩

/-- RQ ends where a response ends after any response. -/
theorem State.respond_rqFramed (s : State) (code : StatusCode) (opce : BitVec 8) (data : List Beat) :
    (s.respond code opce data).rqFramed = true := by
  obtain ⟨b, hb, hl⟩ := responseBeats_getLast? code opce data
  simp [State.rqFramed, List.getLast?_append, hb, hl]

/-! ## The SEEDED check -/

theorem liveGen_of_seeded {s : State} {g : Gen} (hs : s.seeded = true) (hg : s.gen = some g) :
    s.liveGen = some g := by simp [State.liveGen, hs, hg]

theorem liveGen_of_unseeded {s : State} (hs : s.seeded = false) : s.liveGen = none := by
  simp [State.liveGen, hs]

theorem liveGen_eq_some {s : State} {g : Gen} (h : s.liveGen = some g) :
    s.seeded = true ∧ s.gen = some g := by
  unfold State.liveGen at h
  split at h
  · exact ⟨‹_›, h⟩
  · cases h

theorem whenSeeded_of_live {opc : Opcode} {f : Gen → Gen × List Beat} {s : State} {g : Gen}
    (h : s.liveGen = some g) :
    whenSeeded opc f s = { s with gen := some (f g).1 }.respond .ok opc.code (f g).2 := by
  simp [whenSeeded, h]

theorem whenSeeded_of_unseeded {opc : Opcode} {f : Gen → Gen × List Beat} {s : State}
    (h : s.liveGen = none) : whenSeeded opc f s = s.raiseUnseeded opc := by
  simp [whenSeeded, h]

/-- All that a command behind the SEEDED check can do. -/
theorem whenSeeded_cases (opc : Opcode) (f : Gen → Gen × List Beat) (s : State) :
    (s.liveGen = none ∧ whenSeeded opc f s = s.raiseUnseeded opc)
      ∨ ∃ g, s.liveGen = some g
        ∧ whenSeeded opc f s = { s with gen := some (f g).1 }.respond .ok opc.code (f g).2 := by
  cases h : s.liveGen with
  | none => exact .inl ⟨rfl, whenSeeded_of_unseeded h⟩
  | some g => exact .inr ⟨g, rfl, whenSeeded_of_live h⟩

/-! ## Runs of steps -/

theorem runSteps_length (cfg : Config) (k : Nat) (g : Gen) : (runSteps cfg k g).2.length = k := by
  induction k generalizing g with
  | zero => rfl
  | succ k ih => simp [runSteps, ih]

/-- `Step^(j+k)` is `Step^j` and then `Step^k`. -/
theorem runSteps_add (cfg : Config) (j k : Nat) (g : Gen) :
    runSteps cfg (j + k) g =
      ((runSteps cfg k (runSteps cfg j g).1).1,
        (runSteps cfg j g).2 ++ (runSteps cfg k (runSteps cfg j g).1).2) := by
  induction j generalizing g with
  | zero => simp [runSteps]
  | succ j ih => simp [Nat.succ_add, runSteps, ih]

/-- A property of the generator state that one step keeps is kept by any number. -/
theorem runSteps_induct {cfg : Config} {P : Gen → Prop} (h : ∀ g, P g → P (stepFn cfg g).gen)
    (k : Nat) (g : Gen) (hg : P g) : P (runSteps cfg k g).1 := by
  induction k generalizing g with
  | zero => exact hg
  | succ k ih => exact ih _ (h g hg)

theorem permute_fits (cfg : Config) (g : Gen) (hi : Word) :
    cfg.width.fits (permute cfg g hi) = true := by
  unfold permute
  split <;> exact fits_wrap _ _

theorem Gen.fits_iff (cfg : Config) (g : Gen) :
    g.fits cfg = true ↔ g.lanes.length = cfg.lag ∧ (∀ x ∈ g.lanes, x.toNat < 2 ^ cfg.width.bits)
      ∧ g.carry.toNat < 2 ^ cfg.width.bits := by
  simp [Gen.fits, and_assoc]

/-- A lane of a fitting state is below `2^W`; a lane past the end reads 0. -/
theorem Gen.lane_lt {cfg : Config} {g : Gen} (h : g.fits cfg = true) (i : Nat) :
    (g.lane i).toNat < 2 ^ cfg.width.bits := by
  have h' := (Gen.fits_iff cfg g).1 h
  unfold Gen.lane
  by_cases hi : i < g.lanes.length
  · simpa [List.getD_eq_getElem?_getD, hi] using h'.2.1 _ (List.getElem_mem hi)
  · simp [List.getD_eq_getElem?_getD, not_lt.1 hi]

/-- A step leaves a fitting state. -/
theorem stepFn_fits {c : LegalConfig} {g : Gen} (h : g.fits c.params = true) :
    (stepFn c.params g).gen.fits c.params = true := by
  have hl := (legal_facts c).1
  have h' := (Gen.fits_iff _ g).1 h
  rw [Gen.fits_iff]
  refine ⟨?_, ?_, ?_⟩
  · simp only [stepFn, List.length_cons, List.length_take, h'.1]; omega
  · intro x hx
    simp only [stepFn, List.mem_cons] at hx
    rcases hx with rfl | hx
    · simpa using Nat.mod_lt _ (by positivity)
    · exact h'.2.1 x (List.mem_of_mem_take hx)
  · simpa [stepFn] using Nat.mod_lt _ (by positivity)

theorem runSteps_fits {c : LegalConfig} {g : Gen} (k : Nat) (h : g.fits c.params = true) :
    (runSteps c.params k g).1.fits c.params = true :=
  runSteps_induct (P := fun g => g.fits c.params = true) (fun _ => stepFn_fits) k g h

/-! ## The loads -/

theorem loadKeys_fits {c : LegalConfig} (hl : c.params.lag = 3) (k1 k2 : Word) :
    (loadKeys c.params k1 k2).fits c.params = true := by
  obtain ⟨-, -, -, hm, -, -, -, -, -, -, hd, -, -, -, hc, -⟩ := legal_facts c
  have hp := Nat.two_pow_pos c.params.width.bits
  rw [Gen.fits_iff]
  refine ⟨by simp [loadKeys, hl], ?_, by simp only [loadKeys]; omega⟩
  simp [loadKeys, payloadWord, Nat.mod_lt, hp, hd]

theorem loadSeed_fits {c : LegalConfig} (hl : c.params.lag = 3) (bytes : List Byte) :
    (loadSeed c.params bytes).fits c.params = true := by
  obtain ⟨-, -, -, -, ho, hk, -, -, hs, hs', -⟩ := legal_facts c
  have hp := Nat.two_pow_pos c.params.width.bits
  have h1 : 1 < 2 ^ c.params.width.bits := Nat.one_lt_two_pow (by omega)
  rw [Gen.fits_iff]
  refine ⟨by simp [loadSeed, hl], ?_, ?_⟩
  · intro x hx
    simp only [loadSeed, List.mem_cons, List.not_mem_nil, or_false] at hx
    rcases hx with rfl | rfl | rfl
    · simp [seedWord, Nat.mod_lt, hp]
    · simp [seedWord, Nat.mod_lt, hp]
    · simp only [seedOldest, BitVec.toNat_or, toNat_wrap]
      exact Nat.or_lt_two_pow (Nat.mod_lt _ hp) (by simpa using h1)
  · simp only [loadSeed, seedCarry, BitVec.toNat_or, BitVec.toNat_and]
    exact Nat.or_lt_two_pow (lt_of_le_of_lt Nat.and_le_right hk) ho

theorem loadGen_fits (cfg : Config) (lanes : List Word) (carry : Word) :
    (loadGen cfg lanes carry).fits cfg = true := by
  have hp := Nat.two_pow_pos cfg.width.bits
  rw [Gen.fits_iff]
  simp [loadGen, payloadWord, Nat.mod_lt, hp]

/-- Lanes and carry of the instance's size and width are loaded as they are (43_state_io.md R115). -/
theorem loadGen_of_fits {cfg : Config} {g : Gen} (h : g.fits cfg = true) :
    loadGen cfg g.lanes g.carry = g := by
  obtain ⟨hlen, hlanes, hcarry⟩ := (Gen.fits_iff cfg g).1 h
  obtain ⟨lanes, carry⟩ := g
  simp only [loadGen, payloadWord_of_fits ((fits_iff _ _).2 hcarry)]
  congr 1
  apply List.ext_getElem
  · simpa using hlen.symm
  · intro i h1 h2
    simp only [List.getElem_map, List.getElem_range, List.getD_eq_getElem?_getD,
      List.getElem?_eq_getElem h2, Option.getD_some]
    exact payloadWord_of_fits ((fits_iff _ _).2 (hlanes _ (List.getElem_mem _)))

/-! ## The sequencer -/

theorem seqTick_prime {s : State} {k : Nat} {opc : Opcode} {g : Gen} (hs : s.seq = .prime k opc)
    (hg : s.gen = some g) :
    seqTick s =
      if k ≤ 1 then
        { s with gen := some (stepFn s.cfg g).gen, seeded := true, seq := .idle }.respond .ok opc.code []
      else { s with gen := some (stepFn s.cfg g).gen, seq := .prime (k - 1) opc } := by
  simp [seqTick, hs, hg]

/-- The sequencer from PRIME(k): `k` discarded steps, SEEDED, one OK response (41_seeding.md R103). -/
theorem seqRun_prime (k : Nat) (s : State) (opc : Opcode) (g : Gen) (hs : s.seq = .prime (k + 1) opc)
    (hg : s.gen = some g) :
    seqRun (k + 1) s =
      { s with gen := some (runSteps s.cfg (k + 1) g).1, seeded := true, seq := .idle }.respond .ok
        opc.code [] := by
  induction k generalizing s g with
  | zero => simp [seqRun, seqTick_prime hs hg, runSteps]
  | succ k ih =>
    rw [seqRun, seqTick_prime hs hg, if_neg (by omega)]
    exact ih _ _ rfl rfl

/-- All that a seed command can do. -/
theorem seedWith_of_lag {opc : Opcode} {g : Gen} {s : State} (h : s.cfg.lag = 3) :
    seedWith opc g s =
      { s with gen := some (runSteps s.cfg Config.primeCount g).1, seeded := true, seq := .idle }.respond
        .ok opc.code [] := by
  rw [seedWith, if_pos h]
  exact seqRun_prime 5 _ opc g rfl rfl

theorem seedWith_of_not_lag {opc : Opcode} {g : Gen} {s : State} (h : s.cfg.lag ≠ 3) :
    seedWith opc g s = s.raiseIllegal opc.code := by
  rw [seedWith, if_neg h]

end Sys2Proof.Machine
end

