-- ==== Sys2Proof/Laws/Bytes.lean ====
section
/-! SUPPORT. Byte order and byte streams: the byte at each position of a value, of unpacked beats and of a word
stream. -/

namespace Sys2Proof.Machine

theorem littleEndianValue_lt (bytes : List Byte) : littleEndianValue bytes < 2 ^ (8 * bytes.length) := by
  induction bytes with
  | nil => simp [littleEndianValue]
  | cons b bs ih =>
    simp only [littleEndianValue, List.length_cons]
    have := b.isLt
    rw [Nat.mul_succ, pow_add]
    omega

/-- Byte `i` of the value of bytes is byte `i` of the list. -/
theorem littleEndianValue_byte (bytes : List Byte) (i : Nat) :
    littleEndianValue bytes / 2 ^ (8 * i) % 256 = (bytes.getD i 0).toNat := by
  induction bytes generalizing i with
  | nil => simp [littleEndianValue]
  | cons b bs ih =>
    have := b.isLt
    cases i with
    | zero => simp [littleEndianValue, Nat.mod_eq_of_lt this]
    | succ i =>
      rw [List.getD_cons_succ, ← ih, Nat.mul_succ, pow_add, mul_comm, ← Nat.div_div_eq_div_mul]
      congr 2
      simp only [littleEndianValue]
      omega

theorem byteOf_littleEndianValue {bytes : List Byte} (h : bytes.length ≤ 8) (i : Nat) :
    byteOf (BitVec.ofNat 64 (littleEndianValue bytes)) i = bytes.getD i 0 := by
  apply BitVec.eq_of_toNat_eq
  have hlt : littleEndianValue bytes < 2 ^ 64 :=
    lt_of_lt_of_le (littleEndianValue_lt bytes) (Nat.pow_le_pow_right (by decide) (by omega))
  rw [byteOf, BitVec.extractLsb'_toNat, BitVec.toNat_ofNat, Nat.mod_eq_of_lt hlt,
    Nat.shiftRight_eq_div_pow]
  exact littleEndianValue_byte bytes i

theorem unpackBytes_length (beats : List Beat) : (unpackBytes beats).length = 8 * beats.length := by
  simp [unpackBytes, littleEndianBytes, List.length_flatMap]
  omega

/-- Position `i` of a list of parts of one length `n` is position `i mod n` of part `i div n`. -/
theorem getD_flatMap_of_length {α : Type} {n : Nat} (hn : 0 < n) (f : α → List Byte)
    (hf : ∀ a, (f a).length = n) (as : List α) (d : α) (i : Nat) (hi : i < as.length * n) :
    (as.flatMap f).getD i 0 = (f (as.getD (i / n) d)).getD (i % n) 0 := by
  induction as generalizing i with
  | nil => simp at hi
  | cons a as ih =>
    simp only [List.flatMap_cons, List.getD_eq_getElem?_getD]
    by_cases h : i < n
    · rw [List.getElem?_append_left (by rw [hf]; exact h)]
      simp [Nat.div_eq_of_lt h, Nat.mod_eq_of_lt h]
    · rw [List.getElem?_append_right (by rw [hf]; omega), hf, ← List.getD_eq_getElem?_getD,
        ih (i - n) (by simp [Nat.succ_mul] at hi; omega)]
      have e1 : i / n = (i - n) / n + 1 := by rw [Nat.div_eq_sub_div hn (by omega)]
      have e2 : i % n = (i - n) % n := by rw [Nat.mod_eq_sub_mod (by omega)]
      rw [e1, e2]
      simp

theorem littleEndianBytes_getD {n i : Nat} (hi : i < n) (v : BitVec 64) :
    (littleEndianBytes n v).getD i 0 = byteOf v i := by
  simp [littleEndianBytes, hi]

theorem unpackBytes_getD (beats : List Beat) {i : Nat} (hi : i < 8 * beats.length) :
    (unpackBytes beats).getD i 0 = byteOf (beats.getD (i / 8) 0) (i % 8) := by
  rw [unpackBytes, getD_flatMap_of_length (n := 8) (by decide) _ (by simp [littleEndianBytes]) beats 0 i
    (by omega)]
  exact littleEndianBytes_getD (Nat.mod_lt _ (by decide)) _

theorem streamBytes_length (w : Width) (words : List Word) :
    (streamBytes w words).length = words.length * w.bytes := by
  simp [streamBytes, wordBytes, littleEndianBytes, List.length_flatMap]

/-- Byte `i` of the stream is byte `i mod (W/8)` of word `i div (W/8)` (42_serializer.md R105). -/
theorem streamBytes_getD (w : Width) (words : List Word) {i : Nat} (hi : i < words.length * w.bytes) :
    (streamBytes w words).getD i 0 = byteOf (words.getD (i / w.bytes) 0) (i % w.bytes) := by
  have hp := width_bytes_pos w
  rw [streamBytes, getD_flatMap_of_length hp _ (by simp [wordBytes, littleEndianBytes]) words 0 i hi]
  exact littleEndianBytes_getD (Nat.mod_lt _ hp) _

theorem le_ceilDiv_mul (a : Nat) {b : Nat} (hb : 0 < b) : a ≤ ceilDiv a b * b := by
  unfold ceilDiv
  have := Nat.div_add_mod (a + (b - 1)) b
  have := Nat.mod_lt (a + (b - 1)) hb
  rw [mul_comm]
  omega

/-- The steps of a fill give at least its bytes (42_serializer.md R107, R108). -/
theorem le_stepsFor_mul (c : LegalConfig) (len : Nat) :
    len ≤ stepsFor c.params len * c.params.width.bytes := by
  have hp := width_bytes_pos c.params.width
  have hb := (legal_facts c).2.2.2.2.2.2.2.2.2.2.2.2.2.2.2
  unfold stepsFor
  split
  · exact le_ceilDiv_mul _ hp
  · have := le_ceilDiv_mul len (Nat.mul_pos (by omega : 0 < c.params.batchN) hp)
    rw [mul_comm c.params.batchN, mul_assoc]
    exact this

end Sys2Proof.Machine
end

