-- ==== Sys2Proof/Laws/Decoding.lean ====
section
/-! SUPPORT. The fields of a header beat, what a legal header is, and what a decoded command consists of. -/

namespace Sys2Proof

open Machine

theorem headerOpc_headerBeat (o : Opcode) (len : BitVec 32) : headerOpc (headerBeat o len) = o.code := by
  apply BitVec.eq_of_toNat_eq
  have := o.code.isLt
  simp only [headerOpc, headerBeat, BitVec.extractLsb'_toNat, toNat_cat, BitVec.ofNat_eq_ofNat,
    BitVec.toNat_ofNat, Nat.shiftRight_eq_div_pow]
  omega

theorem headerLen_headerBeat (o : Opcode) (len : BitVec 32) : headerLen (headerBeat o len) = len := by
  apply BitVec.eq_of_toNat_eq
  have := o.code.isLt
  have := len.isLt
  simp only [headerLen, headerBeat, BitVec.extractLsb'_toNat, toNat_cat, BitVec.ofNat_eq_ofNat,
    BitVec.toNat_ofNat, Nat.shiftRight_eq_div_pow]
  omega

theorem headerRsv_headerBeat (o : Opcode) (len : BitVec 32) : headerRsv (headerBeat o len) = 0 := by
  apply BitVec.eq_of_toNat_eq
  have := o.code.isLt
  have := len.isLt
  simp only [headerRsv, headerBeat, BitVec.extractLsb'_toNat, toNat_cat, BitVec.ofNat_eq_ofNat,
    BitVec.toNat_ofNat, Nat.shiftRight_eq_div_pow]
  omega

theorem ofCode_code (o : Opcode) : Opcode.ofCode o.code = some o := by cases o <;> rfl

theorem code_of_ofCode {c : BitVec 8} {o : Opcode} (h : Opcode.ofCode c = some o) : o.code = c := by
  simpa using List.find?_some h

/-- A beat is its three fields. -/
theorem beat_fields (h : Beat) : h = headerLen h ++ headerRsv h ++ headerOpc h := by
  apply BitVec.eq_of_toNat_eq
  simp only [toNat_cat, headerLen, headerRsv, headerOpc, BitVec.extractLsb'_toNat,
    Nat.shiftRight_eq_div_pow]
  have := h.isLt
  omega

/-- All that acceptance as a header says (30_encoding.md R61). -/
theorem decodeHeader_ok {cfg : Config} {h : Beat} {o : Opcode} (hd : decodeHeader cfg h = .ok o) :
    headerBeat o (headerLen h) = h ∧ (o.takesLen = false → headerLen h = 0)
      ∧ (o.seeds = true → cfg.lag = 3) := by
  unfold decodeHeader at hd
  cases hc : Opcode.ofCode (headerOpc h) with
  | none => simp [hc] at hd
  | some o' =>
    simp only [hc] at hd
    split at hd
    · cases hd
    split at hd
    · cases hd
    split at hd
    · cases hd
    cases hd
    rename_i h1 h2 h3
    refine ⟨?_, fun ht => by simpa [ht] using h2, fun hs => by simpa [hs] using h3⟩
    have e := beat_fields h
    rw [not_not.1 h1] at e
    rw [headerBeat, code_of_ofCode hc]
    exact e.symm

/-- A header made for an opcode is accepted as it. -/
theorem decodeHeader_headerBeat (cfg : Config) (o : Opcode) (len : BitVec 32)
    (hl : o.takesLen = false → len = 0) (hs : o.seeds = true → cfg.lag = 3) :
    decodeHeader cfg (headerBeat o len) = .ok o := by
  unfold decodeHeader
  rw [headerOpc_headerBeat, ofCode_code, headerRsv_headerBeat, headerLen_headerBeat]
  cases ho : o.takesLen <;> cases hso : o.seeds <;> simp_all

/-- What a decoded list of beats consists of. -/
theorem decode_ok {cfg : Config} {beats : List Beat} {i : Instr} (hd : decode cfg beats = .ok i) :
    ∃ h payload opc, beats = h :: payload ∧ decodeHeader cfg h = .ok opc
      ∧ payload.length = opc.payloadBeats cfg ∧ i = opc.withOperands cfg (headerLen h) payload := by
  cases beats with
  | nil => cases hd
  | cons h payload =>
    unfold decode at hd
    cases hh : decodeHeader cfg h with
    | error e => simp [hh] at hd
    | ok opc =>
      simp only [hh] at hd
      split at hd
      · cases hd
        exact ⟨h, payload, opc, rfl, hh, by assumption, rfl⟩
      · cases hd

/-- A command has the opcode it was made from. -/
theorem withOperands_opcode (cfg : Config) (opc : Opcode) (len : BitVec 32) (payload : List Beat) :
    (opc.withOperands cfg len payload).opcode = opc := by
  cases opc <;> rfl

end Sys2Proof
end

