-- ==== Sys2Proof/Laws/Exec.lean ====
section
/-! SUPPORT. What every command does, said once: it completes, it appends one response, and it leaves the
configuration, DEC and the channels' other sequences alone. -/

namespace Sys2Proof.Machine

/-- `t` is `s` after a command with opcode `opc`, as far as every command agrees. -/
structure Answers (opc : Opcode) (s t : State) : Prop where
  config : t.config = s.config
  dec : t.dec = s.dec
  script : t.script = s.script
  sent : t.sent = s.sent
  received : t.received = s.received
  seeded : s.seeded = true → t.seeded = true
  fault : s.fault = true → t.fault = true
  rq : ∃ code data, t.rq = s.rq ++ responseBeats code opc.code data

theorem whenSeeded_answers (opc : Opcode) (f : Gen → Gen × List Beat) (s : State) :
    Answers opc s (whenSeeded opc f s) := by
  rcases whenSeeded_cases opc f s with ⟨-, h⟩ | ⟨g, -, h⟩ <;> rw [h]
  · exact ⟨rfl, rfl, rfl, rfl, rfl, id, id, _, _, rfl⟩
  · exact ⟨rfl, rfl, rfl, rfl, rfl, id, id, _, _, rfl⟩

theorem seedWith_answers (opc : Opcode) (g : Gen) (s : State) : Answers opc s (seedWith opc g s) := by
  by_cases h : s.cfg.lag = 3
  · rw [seedWith_of_lag h]
    exact ⟨rfl, rfl, rfl, rfl, rfl, fun _ => rfl, id, _, _, rfl⟩
  · rw [seedWith_of_not_lag h]
    exact ⟨rfl, rfl, rfl, rfl, rfl, id, fun _ => rfl, _, _, rfl⟩

/-- Every command answers a next state, and `Answers` says how that state is related to the one before. -/
theorem exec_answers (i : Instr) (s : State) : ∃ t, exec i s = .next t ∧ Answers i.opcode s t := by
  cases i with
  | step => exact ⟨_, rfl, whenSeeded_answers _ _ _⟩
  | batch => exact ⟨_, rfl, whenSeeded_answers _ _ _⟩
  | nextU32 => exact ⟨_, rfl, whenSeeded_answers _ _ _⟩
  | nextU64 => exact ⟨_, rfl, whenSeeded_answers _ _ _⟩
  | fill len => exact ⟨_, rfl, whenSeeded_answers _ _ _⟩
  | tryFill len => exact ⟨_, rfl, whenSeeded_answers _ _ _⟩
  | seedKeys k1 k2 => exact ⟨_, rfl, seedWith_answers _ _ _⟩
  | seedBytes bytes => exact ⟨_, rfl, seedWith_answers _ _ _⟩
  | loadState lanes carry =>
    exact ⟨_, rfl, rfl, rfl, rfl, rfl, rfl, fun _ => rfl, id, _, _, rfl⟩
  | storeState => exact ⟨_, rfl, whenSeeded_answers _ _ _⟩
  | readStatus => exact ⟨_, rfl, rfl, rfl, rfl, rfl, rfl, id, id, _, _, rfl⟩
  | readConfig => exact ⟨_, rfl, rfl, rfl, rfl, rfl, rfl, id, id, _, _, rfl⟩

/-- What one beat can do to the engine (60_exceptions.md R126). -/
theorem onBeat_cases (v : Beat) (s : State) :
    (s.fault = true ∧ v ≠ 0x30 ∧ onBeat v s = .next (s.raiseFaulted (headerOpc v)))
    ∨ (s.fault = true ∧ v = 0x30 ∧ onBeat v s = exec .readStatus s)
    ∨ (s.fault = false ∧ s.dec = .idle ∧ (∃ e, decodeHeader s.cfg v = .error e)
        ∧ onBeat v s = .next (s.raiseIllegal (headerOpc v)))
    ∨ (∃ opc, s.fault = false ∧ s.dec = .idle ∧ decodeHeader s.cfg v = .ok opc
        ∧ 0 < opc.payloadBeats s.cfg
        ∧ onBeat v s = .next { s with dec := .collect opc (opc.payloadBeats s.cfg) [] })
    ∨ (∃ opc, s.fault = false ∧ s.dec = .idle ∧ decodeHeader s.cfg v = .ok opc
        ∧ opc.payloadBeats s.cfg = 0
        ∧ onBeat v s = exec (opc.withOperands s.cfg (headerLen v) []) s)
    ∨ (∃ opc need buf, s.fault = false ∧ s.dec = .collect opc need buf ∧ 2 ≤ need
        ∧ onBeat v s = .next { s with dec := .collect opc (need - 1) (buf ++ [v]) })
    ∨ (∃ opc need buf, s.fault = false ∧ s.dec = .collect opc need buf ∧ need ≤ 1
        ∧ onBeat v s = exec (opc.withOperands s.cfg 0 (buf ++ [v])) { s with dec := .idle }) := by
  unfold onBeat
  cases hf : s.fault with
  | true =>
    by_cases hv : v = 0x30
    · exact .inr (.inl ⟨rfl, hv, by simp [hv]⟩)
    · exact .inl ⟨rfl, hv, by simp only [if_true, if_neg hv]⟩
  | false =>
    cases hd : s.dec with
    | idle =>
      cases hh : decodeHeader s.cfg v with
      | error e => simp
      | ok opc =>
        by_cases hp : 0 < opc.payloadBeats s.cfg
        · simp [hp]
        · simp [Nat.eq_zero_of_not_pos hp]
    | collect opc need buf =>
      by_cases hn : 0 < need - 1
      · simp [hn]; omega
      · simp [hn]; omega

/-- What one step can do (20_memory.md R39; 60_exceptions.md R127). -/
theorem step_cases (s : State) :
    (∃ rest, s.script = .reset :: rest ∧ step s = .next { s with script := rest }.resetEngine)
    ∨ (∃ rest, s.script = .accept :: rest ∧ step s = .next { s with script := rest }.acceptBeat)
    ∨ (∃ v rest, s.script = .send v :: rest ∧ s.seq = .idle
        ∧ step s = onBeat v { s with script := rest, sent := s.sent ++ [v] })
    ∨ (s.script.head? ≠ some .reset ∧ s.seq ≠ .idle ∧ step s = .next (seqTick s))
    ∨ (s.script = [] ∧ s.seq = .idle ∧ step s = .fault .awaitingHost) := by
  unfold step advance
  cases hs : s.script with
  | nil => cases hq : s.seq <;> simp
  | cons m rest =>
    cases m with
    | reset => simp
    | accept => simp
    | send v => cases hq : s.seq <;> simp

end Sys2Proof.Machine
end

