-- ==== Sys2Proof/Laws/PerInstr.lean ====
section
/-! SUPPORT. Facts about every command as syntax, one lemma per constructor: the payload of a command of the
instance has the length its opcode requires. -/

namespace Sys2Proof.Laws.PayloadLength

/-- A command of the instance is encoded with exactly the payload beats its opcode requires
(30_encoding.md R62). -/
def Statement (i : Instr) : Prop :=
  ∀ c : LegalConfig, i.wellFormed c.params = true → i.payload.length = i.opcode.payloadBeats c.params

theorem step : Statement .step := fun _ _ => rfl
theorem batch : Statement .batch := fun _ _ => rfl
theorem nextU32 : Statement .nextU32 := fun _ _ => rfl
theorem nextU64 : Statement .nextU64 := fun _ _ => rfl
theorem fill (len : BitVec 32) : Statement (.fill len) := fun _ _ => rfl
theorem tryFill (len : BitVec 32) : Statement (.tryFill len) := fun _ _ => rfl
theorem seedKeys (k1 k2 : Word) : Statement (.seedKeys k1 k2) := fun _ _ => rfl
theorem seedBytes (bytes : List Byte) : Statement (.seedBytes bytes) := by
  intro c h
  simp only [Instr.wellFormed, Bool.and_eq_true, decide_eq_true_eq] at h
  simp [Instr.payload, Instr.opcode, Opcode.payloadBeats, Machine.packBytes, Config.seedBeats, h.2]
theorem loadState (lanes : List Word) (carry : Word) : Statement (.loadState lanes carry) := by
  intro c h
  simp only [Instr.wellFormed, Bool.and_eq_true, decide_eq_true_eq] at h
  simp [Instr.payload, Instr.opcode, Opcode.payloadBeats, h.1.1]
theorem storeState : Statement .storeState := fun _ _ => rfl
theorem readStatus : Statement .readStatus := fun _ _ => rfl
theorem readConfig : Statement .readConfig := fun _ _ => rfl

end Sys2Proof.Laws.PayloadLength

namespace Sys2Proof.Laws.LenField

/-- LEN is 0 unless the opcode has that operand (30_encoding.md R59). -/
def Statement (i : Instr) : Prop :=
  i.opcode.takesLen = false → i.len = 0

theorem step : Statement .step := fun _ => rfl
theorem batch : Statement .batch := fun _ => rfl
theorem nextU32 : Statement .nextU32 := fun _ => rfl
theorem nextU64 : Statement .nextU64 := fun _ => rfl
theorem fill (len : BitVec 32) : Statement (.fill len) := fun h => by cases h
theorem tryFill (len : BitVec 32) : Statement (.tryFill len) := fun h => by cases h
theorem seedKeys (k1 k2 : Word) : Statement (.seedKeys k1 k2) := fun _ => rfl
theorem seedBytes (bytes : List Byte) : Statement (.seedBytes bytes) := fun _ => rfl
theorem loadState (lanes : List Word) (carry : Word) : Statement (.loadState lanes carry) := fun _ => rfl
theorem storeState : Statement .storeState := fun _ => rfl
theorem readStatus : Statement .readStatus := fun _ => rfl
theorem readConfig : Statement .readConfig := fun _ => rfl

end Sys2Proof.Laws.LenField
end

