-- ==== Sys2Proof/Laws/Run.lean ====
section
/-! SUPPORT. Runs of the machine: one step at a time, and two runs one after the other. -/

namespace Sys2Proof.Machine

theorem run_zero (s : State) : Host.Core.run Sys2Proof.core 0 s = .next s := rfl

theorem run_succ_of_next {s t : State} (h : step s = .next t) (n : Nat) :
    Host.Core.run Sys2Proof.core (n + 1) s = Host.Core.run Sys2Proof.core n t := by
  have h' : Sys2Proof.core.step s = .next t := h
  simp only [Host.Core.run, h']

theorem run_one (s : State) : Host.Core.run Sys2Proof.core 1 s = step s := by
  cases h : step s with
  | next t => exact run_succ_of_next h 0
  | fault r =>
    have h' : Sys2Proof.core.step s = .fault r := h
    simp only [Host.Core.run, h']
    rfl
  | refused r =>
    have h' : Sys2Proof.core.step s = .refused r := h
    simp only [Host.Core.run, h']
    rfl

/-- A run of `m + n` steps is a run of `m` steps and then one of `n`. -/
theorem run_add_of_next (m n : Nat) {s t : State} (h : Host.Core.run Sys2Proof.core m s = .next t) :
    Host.Core.run Sys2Proof.core (m + n) s = Host.Core.run Sys2Proof.core n t := by
  induction m generalizing s with
  | zero =>
    obtain rfl : s = t := by rw [run_zero] at h; exact Host.Outcome.next.inj h
    rw [Nat.zero_add]
  | succ m ih =>
    cases hs : step s with
    | next u =>
      rw [run_succ_of_next hs] at h
      rw [Nat.add_right_comm, run_succ_of_next hs, ih h]
    | fault r =>
      have hs' : Sys2Proof.core.step s = .fault r := hs
      simp only [Host.Core.run, hs'] at h
      cases h
    | refused r =>
      have hs' : Sys2Proof.core.step s = .refused r := hs
      simp only [Host.Core.run, hs'] at h
      cases h

end Sys2Proof.Machine
end

