-- ==== Sys2Proof/Tests/Slice0.lean ====
section
/-! SUPPORT. Tests: refusals of ill-formed terms, decoding of words written out from the spec's encoding, one
step or command on a small state with values from 95_test_vectors.md, and for every statement with hypotheses a
witness that meets them. -/

namespace Sys2Proof.Tests

open Sys2Proof Sys2Proof.Machine

/-! ## The configurations of 95_test_vectors.md, section 0 -/

def tc8Config : Config :=
  { width := .w8, lag := 3, mult := 0xE5, perm := .indices 2 1 0, batchN := 6, carryMask := 0x7F,
    carryOr := 5, oldShift := 2, defaultLane := 0xA5, defaultCarry := 0x14, fillGranularity := .word }

def tc32Config : Config :=
  { width := .w32, lag := 3, mult := 0xCFDBC53D, perm := .indices 2 1 0, batchN := 6,
    carryMask := 0x7FFFFFFF, carryOr := 5, oldShift := 2, defaultLane := 0xD15EA5E5,
    defaultCarry := 0x27BB2EE6, fillGranularity := .word }

def tc64Config : Config :=
  { width := .w64, lag := 3, mult := 0xFEB344657C0AF413, perm := .indices 2 1 0, batchN := 4,
    carryMask := 0x7FFFFFFFFFFFFFFF, carryOr := 5, oldShift := 2, defaultLane := 0xCAFEF00DD15EA5E5,
    defaultCarry := 0x14057B7EF767814F, fillGranularity := .word }

def tc8 : LegalConfig := ⟨tc8Config, by decide⟩
def tc32 : LegalConfig := ⟨tc32Config, by decide⟩
def tc64 : LegalConfig := ⟨tc64Config, by decide⟩

/-- TC64 with FILL_GRANULARITY = BATCH (section 4.3). -/
def tc64Batch : LegalConfig := ⟨{ tc64Config with fillGranularity := .batch }, by decide⟩

/-- An instance with L = 4, on which the seed commands do not exist (section 3.4). -/
def lagFour : LegalConfig := ⟨{ tc64Config with lag := 4, perm := .indices 3 2 0 }, by decide⟩

/-- A seeded state. -/
def seededWith (c : LegalConfig) (lanes : List Word) (carry : Word) : State :=
  { State.ofConfig c with gen := some ⟨lanes, carry⟩, seeded := true }

/-- The state most vectors of the spec start from: x = [1, 2, 3], c = 4. -/
def start (c : LegalConfig) : State := seededWith c [1, 2, 3] 4

/-- A reset state with moves of the host before it. -/
def offered (c : LegalConfig) (moves : List HostMove) : State :=
  { State.ofConfig c with script := moves }

def next? (o : Host.Outcome State Fault Refusal) : Option State :=
  match o with
  | .next t => some t
  | .fault _ => none
  | .refused _ => none

/-- What a command leaves in the lanes and the carry, and the beats it answers. -/
def result (i : Instr) (s : State) : Option (Option Gen × List Beat) :=
  (next? (exec i s)).map fun t => (t.gen, t.rq.map RspBeat.data)

def decoded (c : LegalConfig) (beats : List Beat) : Option Instr :=
  match decode c.params beats with
  | .ok i => some i
  | .error _ => none

def refusal (c : LegalConfig) (beats : List Beat) : Option DecodeError :=
  match decode c.params beats with
  | .ok _ => none
  | .error e => some e

/-! ## WellFormed refuses (30_encoding.md R61, R76), one ill-formed term for each check -/

theorem test_keys_one_too_wide : (Instr.seedKeys 0x100 0).wellFormed tc8.params = false := by decide
theorem test_keys_two_too_wide : (Instr.seedKeys 0 0x100).wellFormed tc8.params = false := by decide
theorem test_keys_need_lag_three : (Instr.seedKeys 1 1).wellFormed lagFour.params = false := by decide
theorem test_seed_needs_lag_three :
    (Instr.seedBytes (List.replicate 32 0)).wellFormed lagFour.params = false := by decide
theorem test_seed_too_short : (Instr.seedBytes [1, 2, 3]).wellFormed tc8.params = false := by decide
theorem test_load_lane_missing : (Instr.loadState [1, 2] 3).wellFormed tc8.params = false := by decide
theorem test_load_lane_too_wide : (Instr.loadState [1, 2, 0x1FF] 4).wellFormed tc8.params = false := by decide
theorem test_load_carry_too_wide : (Instr.loadState [1, 2, 3] 0x100).wellFormed tc8.params = false := by decide

/-! ## Configurations that break a constraint of 00_scope.md R6 or R7 -/

theorem test_lag_one : ({ tc8Config with lag := 1, perm := .indices 0 0 0 } : Config).legal = false := by decide
theorem test_lag_seventeen : ({ tc8Config with lag := 17 } : Config).legal = false := by decide
theorem test_mult_below_seven :
    ({ tc8Config with mult := 6, carryMask := 0, carryOr := 1, defaultCarry := 1 } : Config).legal = false := by
  decide
theorem test_mult_too_wide : ({ tc8Config with mult := 0x100 } : Config).legal = false := by decide
theorem test_perm_out_of_lanes : ({ tc8Config with perm := .indices 3 1 0 } : Config).legal = false := by decide
theorem test_perm_open_on_w64 : ({ tc64Config with perm := .openFn 0 } : Config).legal = false := by decide
theorem test_perm_open_on_w8 : ({ tc8Config with perm := .openFn 0 } : Config).legal = true := by decide
theorem test_batch_five : ({ tc8Config with batchN := 5 } : Config).legal = false := by decide
theorem test_carry_or_even : ({ tc8Config with carryOr := 4 } : Config).legal = false := by decide
theorem test_carry_mask_too_large : ({ tc8Config with carryMask := 0xE3 } : Config).legal = false := by decide
theorem test_old_shift_one : ({ tc8Config with oldShift := 1 } : Config).legal = false := by decide
theorem test_old_shift_width : ({ tc8Config with oldShift := 8 } : Config).legal = false := by decide
theorem test_default_lane_zero : ({ tc8Config with defaultLane := 0 } : Config).legal = false := by decide
theorem test_default_lane_ones : ({ tc8Config with defaultLane := 0xFF } : Config).legal = false := by decide
theorem test_default_carry_zero : ({ tc8Config with defaultCarry := 0 } : Config).legal = false := by decide
theorem test_default_carry_large : ({ tc8Config with defaultCarry := 0xE4 } : Config).legal = false := by decide

/-! ## Decoding, from words written out field by field: OPC in 7:0, RSV in 31:8, LEN in 63:32
(30_encoding.md R59, R62) and the payload layouts of R66 to R68 -/

theorem test_decode_step : decoded tc64 [0x0000000000000001] = some .step := by decide
theorem test_decode_batch : decoded tc64 [0x0000000000000002] = some .batch := by decide
theorem test_decode_nextU32 : decoded tc64 [0x0000000000000003] = some .nextU32 := by decide
theorem test_decode_nextU64 : decoded tc64 [0x0000000000000004] = some .nextU64 := by decide
theorem test_decode_fill : decoded tc64 [0x0000000D00000005] = some (.fill 13) := by decide
theorem test_decode_tryFill : decoded tc64 [0xFFFFFFFF00000006] = some (.tryFill 0xFFFFFFFF) := by decide
theorem test_decode_seedKeys :
    decoded tc64 [0x0000000000000010, 0x0123456789ABCDEF, 2] = some (.seedKeys 0x0123456789ABCDEF 2) := by decide
/-- Bits above W are ignored (R66). -/
theorem test_decode_seedKeys_w8 : decoded tc8 [0x10, 0x1FE, 0x201] = some (.seedKeys 0xFE 0x01) := by decide
/-- Byte 0 is the low byte of the first payload beat (R67). -/
theorem test_decode_seedBytes :
    decoded tc32 [0x0000000000000011, 0x0706050403020100, 0x0F0E0D0C0B0A0908]
      = some (.seedBytes [0, 1, 2, 3, 4, 5, 6, 7, 8, 9, 10, 11, 12, 13, 14, 15]) := by decide
/-- The bits of the last beat beyond SEED_LEN are ignored (R67). -/
theorem test_decode_seedBytes_w8 : decoded tc8 [0x11, 0xAABBCCDD03020100] = some (.seedBytes [0, 1, 2, 3]) := by
  decide
theorem test_decode_loadState :
    decoded tc64 [0x0000000000000020, 1, 2, 3, 0xFFFFFFFFFFFFFFFF]
      = some (.loadState [1, 2, 3] 0xFFFFFFFFFFFFFFFF) := by decide
theorem test_decode_storeState : decoded tc64 [0x0000000000000021] = some .storeState := by decide
theorem test_decode_readStatus : decoded tc64 [0x0000000000000030] = some .readStatus := by decide
theorem test_decode_readConfig : decoded tc64 [0x0000000000000031] = some .readConfig := by decide

/-! Refusals by name (R61, R63). -/

theorem test_refuse_nothing : refusal tc64 [] = some .noHeader := by decide
theorem test_refuse_reserved : refusal tc64 [0x0000000000000007] = some (.reservedOpcode 0x07) := by decide
theorem test_refuse_rsv : refusal tc64 [0x0000000000000101] = some (.reservedBitsSet .step) := by decide
theorem test_refuse_len : refusal tc64 [0x0000000100000030] = some (.lengthNotZero .readStatus) := by decide
theorem test_refuse_lag : refusal lagFour [0x0000000000000010, 1, 1] = some (.seedNeedsLagThree .seedKeys) := by
  decide
theorem test_refuse_payload : refusal tc64 [0x0000000000000010, 1] = some (.payloadCount 2 1) := by decide

/-- The encoder writes the same beats (R77). -/
theorem test_encode_fill : encode (.fill 13) = [0x0000000D00000005] := by decide
theorem test_encode_seedBytes :
    encode (.seedBytes [0, 1, 2, 3, 4, 5, 6, 7, 8, 9, 10, 11, 12, 13, 14, 15])
      = [0x0000000000000011, 0x0706050403020100, 0x0F0E0D0C0B0A0908] := by decide

/-- An opcode-table word: beat k of the command in bits 64k+63 to 64k. -/
theorem test_table_word : decodeTableWord 64 0x0000000D00000005 = some (.fill 13) := by decide
theorem test_table_word_two_beats :
    decodeTableWord 192 (0x10 + 7 * 2 ^ 64 + 9 * 2 ^ 128) = some (.seedKeys 7 9) := by decide

/-! ## The commands, with the values of 95_test_vectors.md -/

/-- Vector S2: b = 1. -/
theorem test_step_carry_out :
    result .step (seededWith tc8 [0x40, 0x80, 0xC0] 0xD0)
      = some (some ⟨[0x90, 0x40, 0x80], 0xAC⟩, [0x0000000100000100, 0x2B]) := by decide
/-- Vector S11. -/
theorem test_step_w64 :
    result .step (seededWith tc64 [0x0123456789ABCDEF, 0xFEDCBA9876543210, 0xFFFFFFFFFFFFFFFF] 0x14057B7EF767814F)
      = some (some ⟨[0x155237197B5C8D3C, 0x0123456789ABCDEF, 0xFEDCBA9876543210], 0xFEB344657C0AF412⟩,
          [0x0000000100000100, 0x00B3466A7F4D07EC]) := by decide
/-- Vector 2.2, TC64 and TC8. -/
theorem test_batch_w64 :
    result .batch (start tc64)
      = some (some ⟨[0xD9BEF54F16BC7C87, 0xFEB344657C0AF414, 0xFD6688CAF815E828], 0xFAD222FB56EFE935⟩,
          [0x0000000400000200, 4, 0xFC19CD307420DC3F, 0xF98055FB6C36C464, 0x05E0AC98B71A5136]) := by decide
theorem test_batch_w8 :
    result .batch (start tc8)
      = some (some ⟨[0x75, 0x1C, 0x1F], 0xCE⟩,
          [0x0000000600000200, 0x04, 0xB5, 0x7E, 0xC5, 0xD3, 0xCA]) := by decide
/-- Vector 4.6: the low half of the S11 word; and four words, the first one highest. -/
theorem test_nextU32_truncates :
    (result .nextU32 (seededWith tc64 [0x0123456789ABCDEF, 0xFEDCBA9876543210, 0xFFFFFFFFFFFFFFFF]
        0x14057B7EF767814F)).map Prod.snd = some [0x0000000100000300, 0x000000007F4D07EC] := by decide
theorem test_nextU32_w8 :
    result .nextU32 (start tc8)
      = some (some ⟨[0x1F, 0xE6, 0xCC], 0xA0⟩, [0x0000000100000300, 0x04B57EC5]) := by decide
theorem test_nextU64_w32 :
    result .nextU64 (start tc32)
      = some (some ⟨[0x9FB78A7C, 0x6F934FBB, 1], 1⟩, [0x0000000100000400, 0x000000046F934FBD]) := by decide
theorem test_nextU64_w8 :
    result .nextU64 (start tc8)
      = some (some ⟨[0x28, 0x89, 0x75], 0x19⟩, [0x0000000100000400, 0x04B57EC5D3CA71F9]) := by decide
/-- Vectors 4.1 and 4.3. -/
theorem test_fill_thirteen :
    result (.fill 13) (start tc64)
      = some (some ⟨[0xFD6688CAF815E828, 0xFC19CD307420DC3D, 1], 1⟩,
          [0x0000000200000500, 4, 0x000000307420DC3F]) := by decide
theorem test_fill_batch_granularity :
    result (.fill 1) (start tc64Batch)
      = some (some ⟨[0xD9BEF54F16BC7C87, 0xFEB344657C0AF414, 0xFD6688CAF815E828], 0xFAD222FB56EFE935⟩,
          [0x0000000100000500, 4]) := by decide
/-- Vector 4.4, and program P6's empty TRY_FILL. -/
theorem test_tryFill :
    (result (.tryFill 7) (start tc32)).map Prod.snd = some [0x0000000100000600, 0x00934FBD00000004] := by decide
theorem test_tryFill_nothing :
    result (.tryFill 0) (start tc64) = some (some ⟨[1, 2, 3], 4⟩, [0x0000000000000600]) := by decide
/-- Vector 3.1. -/
theorem test_seedKeys_w64 :
    result (.seedKeys 1 1) (State.ofConfig tc64)
      = some (some ⟨[0xBB541D60D81F2720, 0x0D5DDCCC7E8B7905, 0xA5FD70250CB5ECCA], 0xFD6839421A5745C9⟩,
          [0x0000000000001000]) := by decide
theorem test_seedKeys_w8 :
    result (.seedKeys 0 0) (start tc8) = some (some ⟨[0x84, 0x19, 0xC1], 0x00⟩, [0x0000000000001000]) := by decide
/-- Vector 3.2, rows "count" (TC32) and "ones" (TC8). -/
theorem test_seedBytes_w32 :
    result (.seedBytes [0, 1, 2, 3, 4, 5, 6, 7, 8, 9, 10, 11, 12, 13, 14, 15]) (State.ofConfig tc32)
      = some (some ⟨[0xB990519A, 0xDD5C590E, 0xB153DB07], 0xB3FDE482⟩, [0x0000000000001100]) := by decide
theorem test_seedBytes_w8 :
    result (.seedBytes [0xFF, 0xFF, 0xFF, 0xFF]) (State.ofConfig tc8)
      = some (some ⟨[0xFE, 0x0B, 0xF4], 0xE4⟩, [0x0000000000001100]) := by decide
/-- Vector T1, and vector S7's load of a carry above M. -/
theorem test_loadState :
    result (.loadState [1, 2, 3] 0xFF) (State.ofConfig tc8)
      = some (some ⟨[1, 2, 3], 0xFF⟩, [0x0000000000002000]) := by decide
theorem test_storeState :
    result .storeState (start tc8)
      = some (some ⟨[1, 2, 3], 4⟩, [0x0000000400002100, 1, 2, 3, 4]) := by decide
/-- Vectors E3, T4 and E9. -/
theorem test_storeState_unseeded : result .storeState (State.ofConfig tc8) = some (none, [0x0000000000002103]) := by
  decide
theorem test_readStatus_fault :
    (result .readStatus { State.ofConfig tc8 with fault := true }).map Prod.snd
      = some [0x0000000100003000, 2] := by decide
/-- Vector T5. -/
theorem test_readConfig :
    (result .readConfig (State.ofConfig tc64)).map Prod.snd
      = some [0x0000000600003100, 0x0000050206040340, 0xFEB344657C0AF413, 0x7FFFFFFFFFFFFFFF, 0x0000000000000102,
          0xCAFEF00DD15EA5E5, 0x14057B7EF767814F] := by decide

/-! ## One step of the machine, with the vectors of section 6 -/

/-- What one step leaves: FAULT, DEC and the beats answered. -/
def stepped (s : State) : Option (Bool × Dec × List Beat) :=
  (next? (step s)).map fun t => (t.fault, t.dec, t.rq.map RspBeat.data)

/-- E1. -/
theorem test_unseeded_step : stepped (offered tc64 [.send 0x01]) = some (false, .idle, [0x0000000000000103]) := by
  decide
/-- E7. -/
theorem test_illegal_header : stepped (offered tc64 [.send 0xFF]) = some (true, .idle, [0x000000000000FF01]) := by
  decide
/-- Section 3.4: a seed header where L is not 3. -/
theorem test_seed_header_lag_four :
    stepped (offered lagFour [.send 0x10]) = some (true, .idle, [0x0000000000001001]) := by decide
/-- E8, E10: every beat but exactly 0x30 while FAULT is 1. -/
theorem test_faulted_step :
    stepped { offered tc64 [.send 0x01] with fault := true } = some (true, .idle, [0x0000000000000102]) := by
  decide
theorem test_faulted_status_with_length :
    stepped { offered tc64 [.send 0x0000000100000030] with fault := true }
      = some (true, .idle, [0x0000000000003002]) := by decide
/-- Program P5: the second payload beat completes the command, whatever it looks like. -/
theorem test_payload_header :
    stepped (offered tc64 [.send 0x10]) = some (false, .collect .seedKeys 2 [], []) := by decide
theorem test_payload_last :
    stepped { offered tc64 [.send 0x01] with dec := .collect .seedKeys 1 [1] }
      = some (false, .idle, [0x0000000000001000]) := by decide
/-- 41_seeding.md R103: PRIME(1) sets SEEDED and answers. -/
theorem test_prime_last :
    (next? (step { State.ofConfig tc8 with seq := .prime 1 .seedBytes, gen := some ⟨[1, 2, 3], 4⟩ })).map
        (fun t => (t.gen, t.seeded, t.seq, t.rq.map RspBeat.data))
      = some (some ⟨[0xB3, 1, 2], 2⟩, true, .idle, [0x0000000000001100]) := by decide
/-- 70_reset_and_hazards.md R139. -/
theorem test_reset_step :
    (next? (step { start tc8 with fault := true, script := [.reset] })).map
        (fun t => (t.gen, t.seeded, t.fault, t.rq))
      = some (none, false, false, []) := by decide
/-- 30_encoding.md R74: the first response beat accepted from READ_STATUS is not the last one. -/
theorem test_accept_step :
    (next? (step { offered tc8 [.accept] with rq := responseBeats .ok 0x30 [0] })).map
        (fun t => (t.rq, t.received))
      = some ([⟨0, true⟩], [⟨0x0000000100003000, false⟩]) := by decide
/-- A command placed on the product instance runs next: an unseeded STEP, and READ_STATUS. -/
theorem test_placed_step : stepped (State.reset.withFetchWord 64 0x01) = some (false, .idle, [0x0000000000000103]) := by
  decide
theorem test_placed_load :
    (next? (step (State.reset.withFetchWord 320 (0x20 + 1 * 2 ^ 64 + 2 * 2 ^ 128 + 3 * 2 ^ 192 + 4 * 2 ^ 256)))).map
        (fun t => (t.gen, t.seeded))
      = some (some ⟨[1, 2, 3], 4⟩, true) := by decide

/-! ## The assembler (30_encoding.md R76, R77) -/

theorem test_assemble_fill : assembleLine tc64.params "FILL 13 ; thirteen bytes" = some [0x0000000D00000005] := by
  decide
theorem test_assemble_load :
    assembleLine tc8.params "LOAD_STATE 1, 2, 0x1F, 4" = some [0x20, 1, 2, 0x1F, 4] := by decide
theorem test_assemble_seed : assembleLine tc8.params "SEED_BYTES 00010203" = some [0x11, 0x03020100] := by decide
theorem test_assemble_beat : assembleLine tc8.params ".beat 0x101" = some [0x101] := by decide
theorem test_assemble_range : assembleLine tc8.params "LOAD_STATE 0x1FF, 2, 3, 4" = none := by decide
theorem test_assemble_lag : assembleLine lagFour.params "SEED_KEYS 1, 1" = none := by decide

/-- The texts that 30_encoding.md R76 and 95_test_vectors.md write. -/
theorem test_text_load :
    commandText .decimal (.loadState [1, 2, 3] 4) = "LOAD_STATE 1, 2, 3, 4".toList := by decide
theorem test_text_seed : commandText .decimal (.seedBytes [0x0C, 0xFF]) = "SEED_BYTES 0cff".toList := by decide
theorem test_text_beat : beatText .hexadecimal 0x101 = ".beat 0x101".toList := by decide

/-! ## The end of a run (70_reset_and_hazards.md R151) -/

/-- Only a beat still to be sent keeps a run going at a command boundary with RQ empty. -/
theorem test_run_over : (offered tc64 [.accept, .reset]).runOver = true := by decide
theorem test_run_not_over : (offered tc64 [.accept, .send 0x01]).runOver = false := by decide
theorem test_observation :
    ({ start tc8 with received := [⟨7, true⟩] } : State).observation = ⟨[⟨7, true⟩], some ⟨[1, 2, 3], 4⟩, true, false⟩ := by
  decide

/-! ## The ports at one edge -/

/-- With RQ holding a beat, an edge moves it to RB and the offered command beat to CB (20_memory.md R37). -/
theorem test_clock_edge :
    (next? (clockEdge ⟨false, true, 0x01, true⟩ { State.ofConfig tc8 with rq := [⟨7, true⟩] })).map
        (fun t => (t.sent, t.received, t.rq))
      = some ([0x01], [⟨7, true⟩], [⟨0x0000000000000103, true⟩]) := by decide

/-! ## Witnesses: for each statement with hypotheses, terms that meet all of them together -/

/-- Commands of TC64 at the ends of their operands' ranges, one for each constructor. -/
theorem witness_DecodeOfEncodeIsTheCommand :
    ∀ i ∈ [Instr.step, .batch, .nextU32, .nextU64, .fill 0xFFFFFFFF, .tryFill 0,
        .seedKeys 0xFFFFFFFFFFFFFFFF 0, .seedBytes (List.replicate 32 0xFF),
        .loadState [0, 1, 0xFFFFFFFFFFFFFFFF] 0xFFFFFFFFFFFFFFFF, .storeState, .readStatus, .readConfig],
      i.wellFormed tc64.params = true := by decide

theorem witness_EncodeOfDecodeIsTheBeats :
    decode tc64.params [0x10, 0xFFFFFFFFFFFFFFFF, 0] = .ok (.seedKeys 0xFFFFFFFFFFFFFFFF 0)
      ∧ tc64.params.width = .w64 := ⟨by rfl, by decide⟩

theorem witness_WrittenWordsDecode : tc64.params.width = .w64 ∧ tc64.params.lag = 3 := by decide

/-- Both commands on TC8, at the first and the last lane. -/
theorem witness_PayloadWordsAreTheLowBits :
    tc8.params.lag = 3 ∧ ([0x1FF, 2, 3, 4] : List Beat).length = tc8.params.lag + 1
      ∧ 0 < tc8.params.lag ∧ 2 < tc8.params.lag := by decide

/-- On TC64, TC32 and TC8, at the last seed byte and the last seed word. -/
theorem witness_SeedBytesAndWordsOfThePayload :
    tc64.params.lag = 3 ∧ ([1, 2, 3, 4] : List Beat).length = (4 * tc64.params.width.bytes + 7) / 8
      ∧ 31 < 4 * tc64.params.width.bytes ∧ tc64.params.width = .w64
      ∧ tc32.params.lag = 3 ∧ ([1, 2] : List Beat).length = (4 * tc32.params.width.bytes + 7) / 8
      ∧ 15 < 4 * tc32.params.width.bytes ∧ tc32.params.width = .w32
      ∧ tc8.params.lag = 3 ∧ ([1] : List Beat).length = (4 * tc8.params.width.bytes + 7) / 8 ∧ 3 < 4 := by
  decide

/-- No data beat, and two, at the first and the last beat of the response. -/
theorem witness_ResponsesAreFramed :
    ([] : List Beat).length < 2 ^ 32 ∧ ([7, 8] : List Beat).length < 2 ^ 32 ∧ 0 ≤ ([7, 8] : List Beat).length
      ∧ 2 ≤ ([7, 8] : List Beat).length := by decide

/-- Nine bytes: the last byte of the stream, and the first and the last position above it. -/
theorem witness_StreamBytesSitInDataBeats :
    let bytes : List Byte := [1, 2, 3, 4, 5, 6, 7, 8, 9]
    8 < bytes.length ∧ bytes.length ≤ 9 ∧ 9 < 8 * (packBytes bytes).length
      ∧ bytes.length ≤ 15 ∧ 15 < 8 * (packBytes bytes).length := by decide

/-- The largest lanes and carry of TC8; the index form of its permutation. -/
theorem witness_StepFunctionArithmetic :
    Gen.fits tc8.params ⟨[0xFF, 0xFF, 0xFF], 0xFF⟩ = true ∧ 1 ≤ 2 ∧ 2 < tc8.params.lag
      ∧ tc8.params.perm = .indices 2 1 0 := by decide

theorem witness_OutputPairingOfWideInstances :
    Gen.fits tc32.params ⟨[1, 2, 0xFFFFFFFF], 4⟩ = true ∧ tc32.params.width = .w32
      ∧ Gen.fits tc64.params ⟨[1, 2, 0xFFFFFFFFFFFFFFFF], 4⟩ = true ∧ tc64.params.width = .w64 := by decide

theorem witness_CarryAddAndUpdate : Gen.fits tc8.params ⟨[0x40, 0x80, 0xC0], 0xD0⟩ = true := by decide

/-- The largest carry below M. -/
theorem witness_MultiplyAccumulateIdentity :
    Gen.fits tc8.params ⟨[0xFF, 0xFF, 0xFF], 0xE4⟩ = true ∧ (0xE4 : Word).toNat ≤ tc8.params.mult.toNat - 1 := by
  decide

/-- A step that stays below `2^W`: oldest lane 1, and `M + c` one below the bound. -/
theorem witness_CarryRangeFacts :
    Gen.fits tc8.params ⟨[0, 0, 1], 0x1A⟩ = true ∧ (0x1A : Word).toNat ≤ tc8.params.mult.toNat - 1
      ∧ tc8.params.mult.toNat * (Gen.lane ⟨[0, 0, 1], 0x1A⟩ (tc8.params.lag - 1)).toNat + (0x1A : Word).toNat
          < 2 ^ tc8.params.width.bits := by decide

theorem witness_FixedPointsOfTheStep :
    (State.ofConfig tc8).config = tc8 ∧ 2 < tc8.params.lag ∧ 1 < tc8.params.lag ∧ 0 < tc8.params.lag
      ∧ tc8.params.perm = .indices 2 1 0 := by decide

theorem witness_StepsAreTheLagSequence :
    Gen.fits tc64.params ⟨[1, 2, 3], 4⟩ = true
      ∧ tc64.params.perm = .indices (tc64.params.lag - 1) (tc64.params.lag - 2) 0 := by decide

/-- A seeded state and an unseeded one: the two cases of every statement about a command behind the SEEDED
check. -/
def SeededAndUnseeded : Prop :=
  ((start tc64).seeded = true ∧ (start tc64).gen = some ⟨[1, 2, 3], 4⟩) ∧ (State.ofConfig tc64).seeded = false

theorem seededAndUnseeded : SeededAndUnseeded := ⟨⟨rfl, rfl⟩, rfl⟩

theorem witness_StepAnswersOneWord :
    SeededAndUnseeded ∧ Gen.fits (start tc64).cfg ⟨[1, 2, 0], 4⟩ = true
      ∧ Gen.lane ⟨[1, 2, 0], 4⟩ ((start tc64).cfg.lag - 1) = 0 := ⟨seededAndUnseeded, by decide, by decide⟩

theorem witness_BatchAnswersItsWords : SeededAndUnseeded := seededAndUnseeded
theorem witness_BatchEqualsRepeatedSteps : SeededAndUnseeded := seededAndUnseeded
theorem witness_NextU32ComposesWords : SeededAndUnseeded := seededAndUnseeded
theorem witness_NextU64ComposesWords : SeededAndUnseeded := seededAndUnseeded
theorem witness_StoreStateReadsOut : SeededAndUnseeded := seededAndUnseeded

/-- LEN 13: the last byte, and the positions from 13 to 15 above it. -/
theorem witness_FillAnswersTheByteStream :
    SeededAndUnseeded ∧ 12 < (13 : BitVec 32).toNat ∧ (13 : BitVec 32).toNat ≤ 13 ∧ 13 < 8 * 2 ∧ 15 < 8 * 2 :=
  ⟨seededAndUnseeded, by decide, by decide, by decide, by decide⟩

/-- First lengths 0 and 8 on W = 64. -/
theorem witness_SuccessiveFillsContinueTheStream :
    tc64.params.fillGranularity = .word ∧ 0 % tc64.params.width.bytes = 0 ∧ 8 % tc64.params.width.bytes = 0 := by
  decide

/-- LEN 16 on W = 64: the first and the last whole word. -/
theorem witness_FillAgreesWithStepWords :
    SeededAndUnseeded ∧ (0 + 1) * (start tc64).cfg.width.bytes ≤ (16 : BitVec 32).toNat
      ∧ (1 + 1) * (start tc64).cfg.width.bytes ≤ (16 : BitVec 32).toNat
      ∧ (start tc64).cfg.fillGranularity = .word := ⟨seededAndUnseeded, by decide, by decide, rfl⟩

theorem witness_SeedKeysLoadsAndPrimes :
    (State.ofConfig tc8).cfg.lag = 3 ∧ (State.ofConfig tc8).cfg.width.fits 0xFF = true
      ∧ (State.ofConfig tc8).cfg.width.fits 0 = true := by decide

theorem witness_SeedBytesLoadsAndPrimes :
    (State.ofConfig tc8).cfg.lag = 3
      ∧ ([0, 0, 0, 0xFF] : List Byte).length = 4 * (State.ofConfig tc8).cfg.width.bytes := by decide

/-- A load by each seed command. -/
theorem witness_SeedLoadsAreNotDegenerate :
    tc8.params.lag = 3 ∧ (∃ k1 k2, loadKeys tc8.params 0 0 = loadKeys tc8.params k1 k2)
      ∧ ∃ bytes, loadSeed tc8.params [0xFF, 0xFF, 0xFF, 0xFF] = loadSeed tc8.params bytes :=
  ⟨rfl, ⟨0, 0, rfl⟩, ⟨_, rfl⟩⟩

theorem witness_LoadStateWritesVerbatim :
    ([0, 1, 0xFF] : List Word).length = (State.ofConfig tc8).cfg.lag
      ∧ (∀ x ∈ ([0, 1, 0xFF] : List Word), (State.ofConfig tc8).cfg.width.fits x = true)
      ∧ (State.ofConfig tc8).cfg.width.fits 0xFF = true :=
  ⟨rfl, List.all_eq_true.1 (by decide : ([0, 1, 0xFF] : List Word).all (State.ofConfig tc8).cfg.width.fits = true),
    by decide⟩

theorem witness_StoredStateResumesTheStream :
    (start tc64).coherent = true ∧ (start tc64).seeded = true ∧ (start tc64).gen = some ⟨[1, 2, 3], 4⟩
      ∧ (State.ofConfig tc64).config = (start tc64).config ∧ (State.ofConfig tc64).fault = (start tc64).fault
      ∧ (State.ofConfig tc64).dec = (start tc64).dec ∧ (State.ofConfig tc64).seq = (start tc64).seq := by decide

/-- A command that is refused while SEEDED is 0, and one that is not. -/
theorem witness_UnseededCommandsAreRefused :
    (State.ofConfig tc8).seeded = false
      ∧ (Instr.fill 0).opcode ∈ ([.step, .batch, .nextU32, .nextU64, .fill, .tryFill, .storeState] : List Opcode)
      ∧ (Instr.seedKeys 1 1).opcode ∉
          ([.step, .batch, .nextU32, .nextU64, .fill, .tryFill, .storeState] : List Opcode)
      ∧ (Instr.seedKeys 1 1).wellFormed (State.ofConfig tc8).cfg = true := by decide

/-- The all-zero beat, and a seed header where L is 4. -/
theorem witness_IllegalHeaderSetsFault :
    (offered tc64 [.send 0]).fault = false ∧ (offered tc64 [.send 0]).dec = .idle
      ∧ (offered tc64 [.send 0]).seq = .idle ∧ (offered tc64 [.send 0]).script = .send 0 :: []
      ∧ (∀ opc, decodeHeader (offered tc64 [.send 0]).cfg 0 ≠ .ok opc)
      ∧ ∀ opc, decodeHeader (offered lagFour [.send 0x10]).cfg 0x10 ≠ .ok opc :=
  ⟨rfl, rfl, rfl, rfl, by intro opc; cases opc <;> (intro h; cases h),
    by intro opc; cases opc <;> (intro h; cases h)⟩

/-- The beat that is performed, and one that differs from it in LEN only. -/
theorem witness_FaultedEngineAnswersEveryBeat :
    ∀ v ∈ ([0x0000000000000030, 0x0000000100000030] : List Beat),
      let s := { offered tc64 [.send v] with fault := true }
      s.fault = true ∧ s.seq = .idle ∧ s.script = .send v :: [] := fun _ _ => ⟨rfl, rfl, rfl⟩

/-- A header with two payload beats; and the first of two owed payload beats. -/
theorem witness_PayloadIsCollectedWithoutEffect :
    let s := offered tc64 [.send 0x10]
    let u := { s with dec := .collect .seedKeys 2 [] }
    s.fault = false ∧ s.seq = .idle ∧ s.script = .send 0x10 :: [] ∧ s.dec = .idle
      ∧ decodeHeader s.cfg 0x10 = .ok .seedKeys ∧ 0 < Opcode.seedKeys.payloadBeats s.cfg
      ∧ u.fault = false ∧ u.seq = .idle ∧ u.script = .send 0x10 :: [] ∧ u.dec = .collect .seedKeys 2 [] ∧ 2 ≤ 2 :=
  ⟨rfl, rfl, rfl, rfl, rfl, by decide, rfl, rfl, rfl, rfl, by decide⟩

theorem witness_EveryCommandAnswersOnce :
    (start tc8).coherent = true ∧ (State.ofConfig lagFour).coherent = true
      ∧ (Instr.loadState [1, 2, 3] 4).wellFormed (start tc8).cfg = true := by decide

theorem witness_ReadsAndLoadsAreIdempotent :
    Instr.storeState.opcode ∈ ([.readStatus, .readConfig, .storeState] : List Opcode)
      ∧ (Instr.seedKeys 0xFF 0).opcode ∈ ([.loadState, .seedKeys, .seedBytes] : List Opcode)
      ∧ (Instr.seedKeys 0xFF 0).wellFormed (start tc8).cfg = true := by decide

/-- A command without payload, and the last payload beat of one with two. -/
theorem witness_StepRunsTheDecodedCommand :
    let s := offered tc64 [.send 0x01]
    let u := { s with dec := .collect .seedKeys 1 [7] }
    s.fault = false ∧ s.seq = .idle ∧ s.script = .send 0x01 :: [] ∧ s.dec = .idle
      ∧ decode s.cfg [0x01] = .ok .step
      ∧ u.fault = false ∧ u.seq = .idle ∧ u.script = .send 0x01 :: [] ∧ u.dec = .collect .seedKeys 1 [7]
      ∧ decode u.cfg (headerBeat .seedKeys 0 :: ([7] ++ [0x01])) = .ok (.seedKeys 7 1) :=
  ⟨rfl, rfl, rfl, rfl, rfl, rfl, rfl, rfl, rfl, rfl⟩

theorem witness_PlacedTableWordIsRunNext :
    State.reset.fault = false ∧ decode State.reset.cfg (tableBeats State.reset.cfg 64 0x01) = .ok .step
      ∧ decode State.reset.cfg (tableBeats State.reset.cfg 192 (0x10 + 7 * 2 ^ 64 + 9 * 2 ^ 128))
          = .ok (.seedKeys 7 9) := ⟨rfl, by rfl, by rfl⟩

theorem witness_CommandStreamRunsInOrder :
    let is : List Instr := [.seedKeys 1 1, .step]
    let s := offered tc64 ((is.flatMap encode).map HostMove.send ++ [.accept])
    s.fault = false ∧ s.dec = .idle ∧ s.seq = .idle ∧ (∀ i ∈ is, i.wellFormed s.cfg = true)
      ∧ s.script = (is.flatMap encode).map HostMove.send ++ [.accept] :=
  ⟨rfl, rfl, rfl, by decide, rfl⟩

/-- PRIME(1) and PRIME(6). -/
theorem witness_SequencerPrimesThenAnswers :
    ∀ k ∈ [1, 6],
      let s := { State.ofConfig tc8 with seq := .prime k .seedKeys, gen := some ⟨[1, 2, 3], 4⟩ }
      s.seq = .prime k .seedKeys ∧ 1 ≤ k ∧ s.gen = some ⟨[1, 2, 3], 4⟩ ∧ s.script = [] := by decide

theorem witness_ResetClearsTheEngine : (offered tc64 [.reset, .accept]).script = .reset :: [.accept] := rfl

/-- With a beat queued, and with none. -/
theorem witness_AcceptMovesTheOldestBeat :
    (offered tc64 [.accept]).script = .accept :: []
      ∧ ({ offered tc64 [.accept] with rq := [⟨1, true⟩] } : State).rq = ⟨1, true⟩ :: []
      ∧ (offered tc64 [.accept]).rq = [] := ⟨rfl, rfl, rfl⟩

/-- A step that answers a command and is no reset. -/
theorem witness_NoResponseBeatIsLost :
    ∃ t, step { start tc64 with script := [.send 0x01] } = .next t
      ∧ ({ start tc64 with script := [.send 0x01] } : State).script.head? ≠ some .reset := ⟨_, rfl, by decide⟩

theorem witness_StuckExactlyWithoutHostMoves :
    ((State.ofConfig tc64).script = [] ∧ (State.ofConfig tc64).seq = .idle)
      ∧ ¬((offered tc64 [.reset]).script = [] ∧ (offered tc64 [.reset]).seq = .idle) := by decide

/-- A step in each state of DEC and SEQ. -/
theorem witness_EveryStepKeepsCoherence :
    (∃ t, ({ start tc64 with script := [.send 0x01] } : State).coherent = true
        ∧ step { start tc64 with script := [.send 0x01] } = .next t)
      ∧ (∃ t, ({ start tc64 with script := [.send 1], dec := .collect .loadState 1 [1, 2, 3] } : State).coherent = true
        ∧ step { start tc64 with script := [.send 1], dec := .collect .loadState 1 [1, 2, 3] } = .next t)
      ∧ ∃ t, ({ start tc64 with seq := .prime 6 .seedKeys } : State).coherent = true
        ∧ step { start tc64 with seq := .prime 6 .seedKeys } = .next t :=
  ⟨⟨_, by decide, rfl⟩, ⟨_, by decide, rfl⟩, ⟨_, by decide, rfl⟩⟩

/-- A reset, and a step that is none with both flags set. -/
theorem witness_OnlyResetClearsTheFlags :
    (∃ t, step { start tc64 with fault := true, script := [.reset] } = .next t
        ∧ ({ start tc64 with fault := true, script := [.reset] } : State).script.head? = some .reset)
      ∧ ∃ t, step { start tc64 with fault := true, script := [.send 0] } = .next t
        ∧ ({ start tc64 with fault := true, script := [.send 0] } : State).script.head? ≠ some .reset
        ∧ ({ start tc64 with fault := true, script := [.send 0] } : State).seeded = true
        ∧ ({ start tc64 with fault := true, script := [.send 0] } : State).fault = true :=
  ⟨⟨_, rfl, rfl⟩, ⟨_, rfl, by decide, rfl, rfl⟩⟩

theorem witness_NoStepChangesTheConfiguration :
    ∃ t, step { start tc64 with script := [.reset] } = .next t := ⟨_, rfl⟩

/-- The largest carry below M: with a BATCH, and in a LOAD_STATE whose last payload beat is still to come. -/
theorem witness_CarryStaysBelowTheMultiplier :
    let s := { seededWith tc8 [0xFF, 0xFF, 0xFF] 0xE4 with script := [.send 0x02] }
    let u := { s with dec := .collect .loadState 2 [1, 2] }
    (s.coherent = true ∧ s.carryBelow = true ∧ ¬s.completesLoad ∧ ∃ t, step s = .next t)
      ∧ u.coherent = true ∧ u.carryBelow = true ∧ ¬u.completesLoad ∧ ∃ t, step u = .next t := by
  refine ⟨⟨by decide, by decide, ?_, ⟨_, rfl⟩⟩, by decide, by decide, ?_, ⟨_, rfl⟩⟩
  · rintro ⟨-, -, need, buf, hd, -⟩
    cases hd
  · rintro ⟨-, -, need, buf, hd, hn⟩
    cases hd
    exact absurd hn (by decide)

/-- Each level of rst, with SEQ idle and in PRIME. -/
theorem witness_HandshakeMovesBeats :
    (⟨true, true, 1, true⟩ : HostPins).rst = true ∧ (⟨false, true, 1, true⟩ : HostPins).rst = false
      ∧ (State.ofConfig tc8).seq = .idle
      ∧ ({ State.ofConfig tc8 with seq := .prime 1 .seedKeys } : State).seq ≠ .idle := by decide

/-- SEQ idle, and in PRIME(1) and PRIME(2). -/
theorem witness_ClockEdgeIsARunOfMoves :
    (State.ofConfig tc8).script = [] ∧ (State.ofConfig tc8).seq = .idle
      ∧ (⟨false, true, 1, true⟩ : HostPins).rst = false
      ∧ ∀ k ∈ [1, 2],
          let s := { State.ofConfig tc8 with seq := .prime k .seedKeys, gen := some ⟨[1, 2, 3], 4⟩ }
          s.script = [] ∧ s.seq = .prime k .seedKeys ∧ s.gen = some ⟨[1, 2, 3], 4⟩ := by decide

/-- A run that is over though the host is still ready to accept. -/
theorem witness_RunsEndWithTheirObservation :
    (offered tc64 [.accept]).runOver = true ∧ (offered tc64 [.accept]).script.head? ≠ some .reset
      ∧ ∃ t, step (offered tc64 [.accept]) = .next t := ⟨by decide, by decide, ⟨_, rfl⟩⟩

/-- A configuration that meets every constraint, and one that does not. -/
theorem witness_IllegalConfigurationsAreRefused :
    LegalConfig.ofConfig tc64Config = some tc64
      ∧ LegalConfig.ofConfig { tc64Config with lag := 17 } = none := by decide

/-- A command of the instance, one that it does not have, and a raw beat at each side of its range. -/
theorem witness_CommandTextsAssemble :
    (Instr.loadState [1, 2, 0xFF] 0xFF).wellFormed tc8.params = true
      ∧ (Instr.loadState [1, 2, 0x100] 0xFF).wellFormed tc8.params = false
      ∧ 2 ^ 64 - 1 < 2 ^ 64 ∧ ¬2 ^ 64 < 2 ^ 64 := by decide

/-- An unreadable line, a line without a command, a raw beat, a command of the instance and one that it does not
have. -/
theorem witness_AssembledLinesDecode :
    parseLine tc8.params "NOP".toList = none ∧ parseLine tc8.params "; nothing".toList = some none
      ∧ parseLine tc8.params ".beat 7".toList = some (some (.beat 7))
      ∧ parseLine tc8.params "STEP".toList = some (some (.command .step)) ∧ Instr.step.wellFormed tc8.params = true
      ∧ parseLine tc8.params "SEED_BYTES 00".toList = some (some (.command (.seedBytes [0])))
      ∧ (Instr.seedBytes [0]).wellFormed tc8.params = false := by decide

end Sys2Proof.Tests
end

section
/-! PROOFS. Which configurations are accepted (00_scope.md R6, R7): each check of `Config.legal` as the constraint
it stands for, the acceptance itself, and the two together. -/

namespace Sys2Proof

open Machine

/-! ## Each check as its constraint -/

@[simp] theorem Config.lagLegal_iff (cfg : Config) : cfg.lagLegal = true ↔ 2 ≤ cfg.lag ∧ cfg.lag ≤ 16 := by
  simp [Config.lagLegal]

@[simp] theorem Config.multLegal_iff (cfg : Config) :
    cfg.multLegal = true ↔ 7 ≤ cfg.mult.toNat ∧ cfg.mult.toNat ≤ 2 ^ cfg.width.bits - 1 := by
  have hpos : 0 < 2 ^ cfg.width.bits := by positivity
  simp [Config.multLegal, Nat.le_sub_one_iff_lt hpos]

@[simp] theorem Config.batchLegal_iff (cfg : Config) :
    cfg.batchLegal = true ↔ cfg.batchN = 4 ∨ cfg.batchN = 6 := by
  simp [Config.batchLegal]

/-- `CARRY_OR` is odd, so the pattern is at least 1 and the bound `M - 2` is never a truncated difference. -/
@[simp] theorem Config.carryPatternLegal_iff (cfg : Config) :
    cfg.carryPatternLegal = true ↔
      cfg.carryOr.toNat % 2 = 1 ∧ cfg.carryOr.toNat < 2 ^ cfg.width.bits
        ∧ cfg.carryMask.toNat < 2 ^ cfg.width.bits
        ∧ (cfg.carryMask.toNat ||| cfg.carryOr.toNat) ≤ cfg.mult.toNat - 2 := by
  have hor : cfg.carryOr.toNat ≤ cfg.carryMask.toNat ||| cfg.carryOr.toNat := Nat.right_le_or
  simp only [Config.carryPatternLegal, Bool.and_eq_true, decide_eq_true_eq, fits_iff, BitVec.toNat_or]
  omega

@[simp] theorem Config.oldShiftLegal_iff (cfg : Config) :
    cfg.oldShiftLegal = true ↔ 2 ≤ cfg.oldShift ∧ cfg.oldShift ≤ cfg.width.bits - 1 := by
  simp only [Config.oldShiftLegal, Bool.and_eq_true, decide_eq_true_eq]
  omega

@[simp] theorem Config.defaultLaneLegal_iff (cfg : Config) :
    cfg.defaultLaneLegal = true ↔
      cfg.defaultLane.toNat < 2 ^ cfg.width.bits ∧ cfg.defaultLane.toNat ≠ 0
        ∧ cfg.defaultLane.toNat ≠ 2 ^ cfg.width.bits - 1 := by
  simp only [Config.defaultLaneLegal, Bool.and_eq_true, decide_eq_true_eq, fits_iff]
  omega

@[simp] theorem Config.defaultCarryLegal_iff (cfg : Config) :
    cfg.defaultCarryLegal = true ↔
      1 ≤ cfg.defaultCarry.toNat ∧ cfg.defaultCarry.toNat ≤ cfg.mult.toNat - 2 := by
  simp only [Config.defaultCarryLegal, Bool.and_eq_true, decide_eq_true_eq]
  omega

/-- An index form is in the lanes at every width, and is the pairing of 40_engine.md R82 at W = 32 and W = 64. There
the check asks for the pairing alone, which is in the lanes since L is at least 2. -/
theorem Config.permLegal_indices_iff {cfg : Config} {pa pb pc : Nat} (hp : cfg.perm = .indices pa pb pc)
    (hlag : 2 ≤ cfg.lag) :
    cfg.permLegal = true ↔
      pa < cfg.lag ∧ pb < cfg.lag ∧ pc < cfg.lag
        ∧ ((cfg.width = .w32 ∨ cfg.width = .w64) → pa = cfg.lag - 1 ∧ pb = cfg.lag - 2 ∧ pc = 0) := by
  cases hw : cfg.width with
  | w8 | w16 => simp [Config.permLegal, hw, hp, and_assoc]
  | w32 | w64 =>
    simp only [Config.permLegal, hw, hp, decide_eq_true_eq, Perm.indices.injEq, reduceCtorEq, or_true,
      true_or, true_imp_iff]
    omega

/-- An OPEN function is for W = 8 and W = 16 only (40_engine.md R83). -/
theorem Config.permLegal_openFn_iff {cfg : Config} {which : Nat} (hp : cfg.perm = .openFn which) :
    cfg.permLegal = true ↔ cfg.width = .w8 ∨ cfg.width = .w16 := by
  cases hw : cfg.width <;> simp [Config.permLegal, hw, hp]

/-- The checks in the order of the constraints of R6 and R7, with the permutation's last. -/
theorem Config.legal_iff_checks (cfg : Config) :
    cfg.legal = true ↔
      cfg.lagLegal = true ∧ cfg.multLegal = true ∧ cfg.batchLegal = true ∧ cfg.carryPatternLegal = true
        ∧ cfg.oldShiftLegal = true ∧ cfg.defaultLaneLegal = true ∧ cfg.defaultCarryLegal = true
        ∧ cfg.permLegal = true := by
  simp only [Config.legal, Bool.and_eq_true]
  tauto

/-! ## Acceptance -/

theorem LegalConfig.ofConfig_of_legal {cfg : Config} (h : cfg.legal = true) :
    LegalConfig.ofConfig cfg = some ⟨cfg, h⟩ := dif_pos h

theorem LegalConfig.ofConfig_of_not_legal {cfg : Config} (h : ¬cfg.legal = true) :
    LegalConfig.ofConfig cfg = none := dif_neg h

/-- Settles O56: the checks of `Config.legal` are together the constraints of R6 and R7, and acceptance is decided
by them alone. -/
theorem illegalConfigurationsAreRefused : Obligations.IllegalConfigurationsAreRefused := by
  intro cfg meets
  have legal_iff_meets : cfg.legal = true ↔ meets := by
    simp only [meets, Config.legal_iff_checks, Config.lagLegal_iff, Config.multLegal_iff, Config.batchLegal_iff,
      Config.carryPatternLegal_iff, Config.oldShiftLegal_iff, Config.defaultLaneLegal_iff,
      Config.defaultCarryLegal_iff, and_assoc]
    refine and_congr_right fun hlag => ?_
    cases hp : cfg.perm with
    | indices pa pb pc => simp only [Config.permLegal_indices_iff hp hlag]
    | openFn which => simp only [Config.permLegal_openFn_iff hp]
  rw [← legal_iff_meets]
  exact ⟨fun h => ⟨_, LegalConfig.ofConfig_of_legal h, rfl⟩, LegalConfig.ofConfig_of_not_legal⟩

end Sys2Proof
end

section
/-! PROOFS. The carry (10_state.md R19): the multiply-accumulate of one step in exact arithmetic, the bounds that any
number of steps keeps, and the carries that the two seed loads write. -/

namespace Sys2Proof.Machine

/-! ## One step -/

/-- The carry-out bit as a number: what `low + c` carries past `2^W`. Both summands are below `2^W`, so it carries at
most once. -/
theorem carryOut_toNat {w : Width} {low c : Word} (hlow : low.toNat < 2 ^ w.bits) (hc : c.toNat < 2 ^ w.bits) :
    (carryOut w low c).toNat = (low.toNat + c.toNat) / 2 ^ w.bits := by
  unfold carryOut
  by_cases h : 2 ^ w.bits ≤ low.toNat + c.toNat
  · have hone : (low.toNat + c.toNat) / 2 ^ w.bits = 1 := Nat.div_eq_of_lt_le (by omega) (by omega)
    simp [h, hone]
  · simp [h, Nat.div_eq_of_lt (not_le.1 h)]

/-- Splitting off the low part of a product loses nothing: `t div B` and what `t mod B + c` carries are together
`(t + c) div B`. -/
theorem div_add_mod_add_div (t c : Nat) {b : Nat} (hb : 0 < b) : t / b + (t % b + c) / b = (t + c) / b := by
  conv_rhs => rw [← Nat.div_add_mod t b, Nat.add_assoc, Nat.mul_add_div hb]

/-- The high part of `M * x + c` for W-bit `x` and `c`: the sum is below `(M + 1) * 2^W`. -/
theorem mulAdd_div_le {m x c b : Nat} (hx : x < b) (hc : c < b) : (m * x + c) / b ≤ m := by
  have hmx : m * x ≤ m * b := Nat.mul_le_mul_left m hx.le
  rw [← Nat.lt_succ_iff, Nat.div_lt_iff_lt_mul (by omega), Nat.succ_mul]
  omega

/-- With `c` below M the sum is below `M * 2^W`. -/
theorem mulAdd_div_lt {m x c b : Nat} (hx : x < b) (hc : c < m) : (m * x + c) / b < m := by
  rw [Nat.div_lt_iff_lt_mul (by omega)]
  calc m * x + c < m * x + m := by omega
    _ = m * (x + 1) := (Nat.mul_succ m x).symm
    _ ≤ m * b := Nat.mul_le_mul_left m hx

@[simp] theorem productLow_toNat (cfg : Config) (g : Gen) :
    (productLow cfg g).toNat = product cfg g % 2 ^ cfg.width.bits := by
  simp [productLow]

/-- The product of two W-bit values has at most 2W bits, so its high part needs no reduction. -/
theorem productHigh_toNat {c : LegalConfig} {g : Gen} (h : g.fits c.params = true) :
    (productHigh c.params g).toNat = product c.params g / 2 ^ c.params.width.bits := by
  obtain ⟨-, -, -, hmult, -⟩ := legal_facts c
  rw [productHigh, toNat_wrap, Nat.mod_eq_of_lt]
  exact Nat.div_lt_of_lt_mul (Nat.mul_lt_mul'' (Gen.lane_lt h _) hmult)

/-- The carry after a step is the high part of `M * x[L-1] + c` (40_engine.md R87): it is at most M, so the update
never wraps. -/
theorem stepFn_carry_toNat {c : LegalConfig} {g : Gen} (h : g.fits c.params = true) :
    (stepFn c.params g).gen.carry.toNat =
      (c.params.mult.toNat * (g.lane (c.params.lag - 1)).toNat + g.carry.toNat) / 2 ^ c.params.width.bits := by
  obtain ⟨-, -, -, hmult, -⟩ := legal_facts c
  obtain ⟨-, -, hcarry⟩ := (Gen.fits_iff _ g).1 h
  have hpos := Nat.two_pow_pos c.params.width.bits
  have hlow : (productLow c.params g).toNat < 2 ^ c.params.width.bits := by simp [Nat.mod_lt, hpos]
  have hsum : (product c.params g + g.carry.toNat) / 2 ^ c.params.width.bits < 2 ^ c.params.width.bits := by
    rw [product, Nat.mul_comm (g.lane _).toNat]
    exact lt_of_le_of_lt (mulAdd_div_le (Gen.lane_lt h _) hcarry) hmult
  calc (stepFn c.params g).gen.carry.toNat
      = ((productHigh c.params g).toNat + (carryOut c.params.width (productLow c.params g) g.carry).toNat)
          % 2 ^ c.params.width.bits := by simp only [stepFn, toNat_wrap]
    _ = (product c.params g + g.carry.toNat) / 2 ^ c.params.width.bits := by
        rw [carryOut_toNat hlow hcarry, productHigh_toNat h, productLow_toNat, div_add_mod_add_div _ _ hpos,
          Nat.mod_eq_of_lt hsum]
    _ = _ := by rw [product, Nat.mul_comm (g.lane _).toNat]

/-- One step from any W-bit carry leaves at most M. -/
theorem stepFn_carry_le_mult {c : LegalConfig} {g : Gen} (h : g.fits c.params = true) :
    (stepFn c.params g).gen.carry.toNat ≤ c.params.mult.toNat := by
  obtain ⟨-, -, hcarry⟩ := (Gen.fits_iff _ g).1 h
  rw [stepFn_carry_toNat h]
  exact mulAdd_div_le (Gen.lane_lt h _) hcarry

/-- One step keeps a carry below M (40_engine.md R87). -/
theorem stepFn_carry_lt {c : LegalConfig} {g : Gen} (h : g.fits c.params = true)
    (hc : g.carry.toNat < c.params.mult.toNat) :
    (stepFn c.params g).gen.carry.toNat < c.params.mult.toNat := by
  rw [stepFn_carry_toNat h]
  exact mulAdd_div_lt (Gen.lane_lt h _) hc

theorem stepFn_carry_eq_zero {c : LegalConfig} {g : Gen} (h : g.fits c.params = true)
    (hv : c.params.mult.toNat * (g.lane (c.params.lag - 1)).toNat + g.carry.toNat < 2 ^ c.params.width.bits) :
    (stepFn c.params g).gen.carry = 0 := by
  apply BitVec.eq_of_toNat_eq
  rw [stepFn_carry_toNat h, Nat.div_eq_of_lt hv]
  rfl

/-! ## Any number of steps -/

theorem runSteps_carry_lt {c : LegalConfig} {g : Gen} (k : Nat) (h : g.fits c.params = true)
    (hc : g.carry.toNat < c.params.mult.toNat) :
    (runSteps c.params k g).1.carry.toNat < c.params.mult.toNat :=
  (runSteps_induct (P := fun g => g.fits c.params = true ∧ g.carry.toNat < c.params.mult.toNat)
    (fun _ hg => ⟨stepFn_fits hg.1, stepFn_carry_lt hg.1 hg.2⟩) k g ⟨h, hc⟩).2

/-! ## The seed loads -/

theorem loadKeys_carry_range (c : LegalConfig) (k1 k2 : Word) :
    1 ≤ (loadKeys c.params k1 k2).carry.toNat
      ∧ (loadKeys c.params k1 k2).carry.toNat + 2 ≤ c.params.mult.toNat := by
  obtain ⟨-, -, -, -, -, -, -, -, -, -, -, -, -, hlow, hhigh, -⟩ := legal_facts c
  exact ⟨hlow, hhigh⟩

/-- The masked and patterned carry (41_seeding.md R99) has the odd `CARRY_OR` in it and lies in
`CARRY_MASK | CARRY_OR`. -/
theorem seedCarry_range (c : LegalConfig) (w0 : Word) :
    1 ≤ (seedCarry c.params w0).toNat ∧ (seedCarry c.params w0).toNat + 2 ≤ c.params.mult.toNat := by
  obtain ⟨-, -, -, -, -, -, hpattern, hodd, -⟩ := legal_facts c
  simp only [seedCarry, BitVec.toNat_or, BitVec.toNat_and] at hpattern ⊢
  have hge : c.params.carryOr.toNat ≤ w0.toNat &&& c.params.carryMask.toNat ||| c.params.carryOr.toNat :=
    Nat.right_le_or
  have hle : (w0.toNat &&& c.params.carryMask.toNat ||| c.params.carryOr.toNat)
      ≤ c.params.carryMask.toNat ||| c.params.carryOr.toNat := by
    rw [Nat.or_and_distrib_right]
    exact Nat.and_le_right
  omega

theorem loadSeed_carry_range (c : LegalConfig) (bytes : List Byte) :
    1 ≤ (loadSeed c.params bytes).carry.toNat
      ∧ (loadSeed c.params bytes).carry.toNat + 2 ≤ c.params.mult.toNat :=
  seedCarry_range c _

/-- Settles O13: the two loads' carries are read off the configuration's constraints, and the step's carry is the
high part of the multiply-accumulate. -/
theorem carryRangeFacts : Obligations.CarryRangeFacts := by
  intro c
  obtain ⟨-, -, hmult, -⟩ := legal_facts c
  refine ⟨fun k1 k2 => ?_, fun bytes => ?_, fun g hg => ⟨fun k hk => ?_, stepFn_carry_eq_zero hg,
    stepFn_carry_le_mult hg⟩⟩
  · have := loadKeys_carry_range c k1 k2
    omega
  · have := loadSeed_carry_range c bytes
    omega
  · have := runSteps_carry_lt k hg (by omega)
    omega

end Sys2Proof.Machine
end

section
/-! PROOFS. What a command writes to the lanes and the carry, said once for all commands: nothing, or one of four
values. The invariant and the bound of the carry are both read off it. -/

namespace Sys2Proof.Machine

/-- The lanes and the carry that command `i` may write in state `s`: steps from the live ones, one of the two seed
loads after priming, or the operands of a LOAD_STATE. -/
inductive GenSource (i : Instr) (s : State) : Gen → Prop
  | steps {g : Gen} (k : Nat) (live : s.liveGen = some g) : GenSource i s (runSteps s.cfg k g).1
  | keys (k1 k2 : Word) (lag : s.cfg.lag = 3) :
    GenSource i s (runSteps s.cfg Config.primeCount (loadKeys s.cfg k1 k2)).1
  | seed (bytes : List Byte) (lag : s.cfg.lag = 3) :
    GenSource i s (runSteps s.cfg Config.primeCount (loadSeed s.cfg bytes)).1
  | load (lanes : List Word) (carry : Word) (isLoad : i = .loadState lanes carry) :
    GenSource i s (loadGen s.cfg lanes carry)

/-- What command `i` makes of the lanes, the carry, SEEDED and SEQ, from `s` to `t`. -/
inductive GenOutcome (i : Instr) (s t : State) : Prop
  | kept (gen : t.gen = s.gen) (seeded : t.seeded = s.seeded) (seq : t.seq = s.seq)
  | written (g : Gen) (source : GenSource i s g) (gen : t.gen = some g) (seeded : t.seeded = true)
    (seq : t.seq = s.seq ∨ t.seq = .idle)

theorem whenSeeded_genOutcome (i : Instr) {opc : Opcode} {f : Gen → Gen × List Beat} {s : State}
    (hf : ∀ g, ∃ k, (f g).1 = (runSteps s.cfg k g).1) : GenOutcome i s (whenSeeded opc f s) := by
  rcases whenSeeded_cases opc f s with ⟨-, h⟩ | ⟨g, hlive, h⟩ <;> rw [h]
  · exact .kept rfl rfl rfl
  · obtain ⟨k, hk⟩ := hf g
    obtain ⟨hseeded, -⟩ := liveGen_eq_some hlive
    exact .written _ (.steps k hlive) (congrArg some hk) hseeded (.inl rfl)

theorem seedWith_genOutcome {i : Instr} {opc : Opcode} {g : Gen} {s : State}
    (hsource : s.cfg.lag = 3 → GenSource i s (runSteps s.cfg Config.primeCount g).1) :
    GenOutcome i s (seedWith opc g s) := by
  by_cases hlag : s.cfg.lag = 3
  · rw [seedWith_of_lag hlag]
    exact .written _ (hsource hlag) rfl rfl (.inr rfl)
  · rw [seedWith_of_not_lag hlag]
    exact .kept rfl rfl rfl

/-- An accessor takes one step or R/W steps (42_serializer.md R110). -/
theorem compose_gen (cfg : Config) (r : Nat) (g : Gen) :
    ∃ k, (compose cfg r g).1 = (runSteps cfg k g).1 := by
  unfold compose
  split
  · exact ⟨1, rfl⟩
  · exact ⟨_, rfl⟩

theorem exec_genOutcome {i : Instr} {s t : State} (h : exec i s = .next t) : GenOutcome i s t := by
  cases i <;> cases h
  case step => exact whenSeeded_genOutcome _ fun g => ⟨1, rfl⟩
  case batch => exact whenSeeded_genOutcome _ fun g => ⟨_, rfl⟩
  case nextU32 => exact whenSeeded_genOutcome _ (compose_gen _ 32)
  case nextU64 => exact whenSeeded_genOutcome _ (compose_gen _ 64)
  case fill len => exact whenSeeded_genOutcome _ fun g => ⟨_, rfl⟩
  case tryFill len => exact whenSeeded_genOutcome _ fun g => ⟨_, rfl⟩
  case seedKeys k1 k2 => exact seedWith_genOutcome (.keys k1 k2)
  case seedBytes bytes => exact seedWith_genOutcome (.seed bytes)
  case loadState lanes carry => exact .written _ (.load lanes carry rfl) rfl rfl (.inl rfl)
  case storeState => exact whenSeeded_genOutcome _ fun g => ⟨0, rfl⟩
  case readStatus => exact .kept rfl rfl rfl
  case readConfig => exact .kept rfl rfl rfl

/-- `exec_answers`, for the state that the command is known to answer. -/
theorem exec_answers_of_next {i : Instr} {s t : State} (h : exec i s = .next t) : Answers i.opcode s t := by
  obtain ⟨u, hu, ha⟩ := exec_answers i s
  rw [h] at hu
  cases hu
  exact ha

/-! ## Size and range of what is written -/

theorem State.genFits_iff (s : State) : s.genFits = true ↔ ∀ g, s.gen = some g → g.fits s.cfg = true := by
  unfold State.genFits
  cases s.gen <;> simp

theorem State.carryBelow_iff (s : State) :
    s.carryBelow = true ↔ ∀ g, s.gen = some g → g.carry.toNat < s.cfg.mult.toNat := by
  unfold State.carryBelow
  cases s.gen <;> simp

theorem GenSource.fits {i : Instr} {s : State} {g : Gen} (hs : s.genFits = true) (h : GenSource i s g) :
    g.fits s.cfg = true := by
  cases h with
  | steps k live => exact runSteps_fits k ((State.genFits_iff s).1 hs _ (liveGen_eq_some live).2)
  | keys k1 k2 lag => exact runSteps_fits _ (loadKeys_fits lag k1 k2)
  | seed bytes lag => exact runSteps_fits _ (loadSeed_fits lag bytes)
  | load lanes carry => exact loadGen_fits _ _ _

/-- LOAD_STATE alone can write a carry of M or more: its operand is not checked (43_state_io.md R116). -/
theorem GenSource.carry_lt {i : Instr} {s : State} {g : Gen} (hfits : s.genFits = true)
    (hbelow : s.carryBelow = true) (hi : i.opcode ≠ .loadState) (h : GenSource i s g) :
    g.carry.toNat < s.cfg.mult.toNat := by
  cases h with
  | steps k live =>
    obtain ⟨-, hgen⟩ := liveGen_eq_some live
    exact runSteps_carry_lt k ((State.genFits_iff s).1 hfits _ hgen) ((State.carryBelow_iff s).1 hbelow _ hgen)
  | keys k1 k2 lag =>
    have hcarry := loadKeys_carry_range s.config k1 k2
    exact runSteps_carry_lt _ (loadKeys_fits lag k1 k2) (Nat.le_of_succ_le hcarry.2)
  | seed bytes lag =>
    have hcarry := loadSeed_carry_range s.config bytes
    exact runSteps_carry_lt _ (loadSeed_fits lag bytes) (Nat.le_of_succ_le hcarry.2)
  | load lanes carry isLoad => exact absurd (congrArg Instr.opcode isLoad) hi

end Sys2Proof.Machine
end

section
/-! PROOFS. The invariant `State.coherent`: what it says part by part, and that reset, a response beat that moves, a
command, a beat and a transition of the sequencer each keep it. -/

namespace Sys2Proof.Machine

/-! ## The parts of the invariant -/

theorem State.coherent_iff (s : State) :
    s.coherent = true ↔ s.genFits = true ∧ s.genMatchesFlags = true ∧ s.decCoherent = true
      ∧ s.seqCoherent = true ∧ s.rqFramed = true := by
  simp [State.coherent, and_assoc]

theorem State.decCoherent_of_idle {s : State} (h : s.dec = .idle) : s.decCoherent = true := by
  simp [State.decCoherent, h]

theorem State.decCoherent_collect_iff {s : State} {opc : Opcode} {need : Nat} {buf : List Beat}
    (h : s.dec = .collect opc need buf) :
    s.decCoherent = true ↔ 1 ≤ need ∧ need + buf.length = opc.payloadBeats s.cfg
      ∧ (opc.seeds = true → s.cfg.lag = 3) ∧ s.fault = false := by
  simp [State.decCoherent, h, and_assoc, imp_iff_not_or]

/-- A faulted engine collects no payload (60_exceptions.md R124). -/
theorem State.dec_idle_of_fault {s : State} (h : s.decCoherent = true) (hf : s.fault = true) : s.dec = .idle := by
  cases hd : s.dec with
  | idle => rfl
  | collect opc need buf =>
    obtain ⟨-, -, -, hnot⟩ := (State.decCoherent_collect_iff hd).1 h
    simp [hf] at hnot

theorem State.seqCoherent_prime_iff {s : State} {k : Nat} {opc : Opcode} (h : s.seq = .prime k opc) :
    s.seqCoherent = true ↔ 1 ≤ k ∧ k ≤ Config.primeCount ∧ opc.seeds = true ∧ s.cfg.lag = 3
      ∧ s.gen.isSome = true ∧ s.dec = .idle ∧ s.fault = false := by
  simp [State.seqCoherent, h, and_assoc]

/-- While SEQ is idle the lanes and the carry hold values exactly when SEEDED is 1. -/
theorem State.coherent_iff_of_seq_idle {s : State} (h : s.seq = .idle) :
    s.coherent = true ↔ s.genFits = true ∧ s.gen.isSome = s.seeded ∧ s.decCoherent = true
      ∧ s.rqFramed = true := by
  have hflags : s.genMatchesFlags = true ↔ s.gen.isSome = s.seeded := by
    cases hs : s.seeded <;> simp [State.genMatchesFlags, hs, h]
  have hseq : s.seqCoherent = true := by simp [State.seqCoherent, h]
  rw [State.coherent_iff, hflags]
  simp [hseq]

theorem State.coherent_of_seq_idle {s : State} (hseq : s.seq = .idle) (hgen : s.genFits = true)
    (hflags : s.gen.isSome = s.seeded) (hdec : s.decCoherent = true) (hframed : s.rqFramed = true) :
    s.coherent = true :=
  (State.coherent_iff_of_seq_idle hseq).2 ⟨hgen, hflags, hdec, hframed⟩

/-- RQ is framed after any response that is appended to it. -/
theorem State.rqFramed_of_append {t : State} {q : List RspBeat} {code : StatusCode} {opce : BitVec 8}
    {data : List Beat} (h : t.rq = q ++ responseBeats code opce data) : t.rqFramed = true := by
  have hr := State.respond_rqFramed { t with rq := q } code opce data
  rw [State.rqFramed, State.respond_rq] at hr
  rwa [State.rqFramed, h]

theorem State.coherent_of_no_gen {s : State} (hgen : s.gen = none) (hseeded : s.seeded = false)
    (hdec : s.dec = .idle) (hseq : s.seq = .idle) (hrq : s.rq = []) : s.coherent = true := by
  exact State.coherent_of_seq_idle hseq (by simp [State.genFits, hgen]) (by simp [hgen, hseeded])
    (State.decCoherent_of_idle hdec) (by simp [State.rqFramed, hrq])

/-- Settles O49: without lanes, flags and queued beats every part of the invariant is met. -/
theorem resetStatesAreCoherent : Obligations.ResetStatesAreCoherent := by
  have hof (c : LegalConfig) : (State.ofConfig c).coherent = true :=
    State.coherent_of_no_gen rfl rfl rfl rfl rfl
  exact ⟨hof _, hof⟩

/-! ## Each transition keeps it -/

theorem resetEngine_coherent (s : State) : s.resetEngine.coherent = true :=
  State.coherent_of_no_gen rfl rfl rfl rfl rfl

/-- What is left of RQ when its oldest beat moves still ends where a response ends. -/
theorem acceptBeat_rqFramed {s : State} (h : s.rqFramed = true) : s.acceptBeat.rqFramed = true := by
  unfold State.acceptBeat
  cases hrq : s.rq with
  | nil => exact h
  | cons b rest =>
    cases rest with
    | nil => rfl
    | cons b' rest' => simpa [State.rqFramed, hrq] using h

theorem acceptBeat_coherent {s : State} (h : s.coherent = true) : s.acceptBeat.coherent = true := by
  rw [State.coherent_iff] at h ⊢
  obtain ⟨hgen, hflags, hdec, hseq, hrq⟩ := h
  refine ⟨?_, ?_, ?_, ?_, acceptBeat_rqFramed hrq⟩
  · simpa [State.genFits] using hgen
  · simpa [State.genMatchesFlags] using hflags
  · simpa [State.decCoherent] using hdec
  · simpa [State.seqCoherent] using hseq

/-- A command performed between commands keeps the invariant, whatever it does to FAULT: DEC is idle then. -/
theorem exec_coherent {i : Instr} {s t : State} (hs : s.coherent = true) (hdec : s.dec = .idle)
    (hseq : s.seq = .idle) (h : exec i s = .next t) : t.coherent = true := by
  obtain ⟨hfits, hflags, -, -⟩ := (State.coherent_iff_of_seq_idle hseq).1 hs
  have ha := exec_answers_of_next h
  obtain ⟨code, data, hrq⟩ := ha.rq
  have hframed : t.rqFramed = true := State.rqFramed_of_append hrq
  have htdec : t.decCoherent = true := State.decCoherent_of_idle (ha.dec.trans hdec)
  cases exec_genOutcome h with
  | kept gen seeded seq =>
    refine State.coherent_of_seq_idle (seq.trans hseq) ?_ (by rw [gen, seeded, hflags]) htdec hframed
    simpa [State.genFits, gen, ha.config] using hfits
  | written g source gen seeded seq =>
    refine State.coherent_of_seq_idle (by simpa [hseq] using seq) ?_ (by rw [gen, seeded]; rfl) htdec hframed
    simpa [State.genFits, gen, ha.config] using source.fits hfits

theorem onBeat_coherent {v : Beat} {s t : State} (hs : s.coherent = true) (hseq : s.seq = .idle)
    (h : onBeat v s = .next t) : t.coherent = true := by
  obtain ⟨hfits, hflags, hdec, hframed⟩ := (State.coherent_iff_of_seq_idle hseq).1 hs
  rcases onBeat_cases v s with ⟨-, -, hb⟩ | ⟨hf, -, hb⟩ | ⟨-, hd, -, hb⟩ | ⟨opc, hf, -, hh, hp, hb⟩
    | ⟨opc, -, hd, -, -, hb⟩ | ⟨opc, need, buf, hf, hd, hn, hb⟩ | ⟨opc, need, buf, -, -, -, hb⟩
    <;> rw [hb] at h
  · cases h
    exact State.coherent_of_seq_idle hseq hfits hflags hdec (State.rqFramed_of_append rfl)
  · exact exec_coherent hs (State.dec_idle_of_fault hdec hf) hseq h
  · cases h
    exact State.coherent_of_seq_idle hseq hfits hflags (State.decCoherent_of_idle hd) (State.rqFramed_of_append rfl)
  · cases h
    obtain ⟨-, -, hlag⟩ := decodeHeader_ok hh
    have hcollect := (State.decCoherent_collect_iff (s := { s with dec := .collect opc _ [] }) rfl).2
      ⟨hp, rfl, hlag, hf⟩
    exact State.coherent_of_seq_idle hseq hfits hflags hcollect hframed
  · exact exec_coherent hs hd hseq h
  · cases h
    obtain ⟨-, hlen, hlag, -⟩ := (State.decCoherent_collect_iff hd).1 hdec
    have hlen' : need - 1 + (buf ++ [v]).length = opc.payloadBeats s.cfg := by
      rw [List.length_append, List.length_singleton, ← hlen]
      omega
    have hcollect := (State.decCoherent_collect_iff (s := { s with dec := .collect opc (need - 1) (buf ++ [v]) })
      rfl).2 ⟨by omega, hlen', hlag, hf⟩
    exact State.coherent_of_seq_idle hseq hfits hflags hcollect hframed
  · exact exec_coherent (s := { s with dec := .idle })
      (State.coherent_of_seq_idle hseq hfits hflags rfl hframed) rfl hseq h

theorem seqTick_coherent {s : State} (hs : s.coherent = true) : (seqTick s).coherent = true := by
  cases hq : s.seq with
  | idle => simpa [seqTick, hq] using hs
  | prime k opc =>
    obtain ⟨hfits, hflags, hdec, hseq, hframed⟩ := (State.coherent_iff s).1 hs
    obtain ⟨hk, hk6, hseeds, hlag, hsome, hd, hf⟩ := (State.seqCoherent_prime_iff hq).1 hseq
    obtain ⟨g, hg⟩ := Option.isSome_iff_exists.1 hsome
    have hstep : (stepFn s.cfg g).gen.fits s.cfg = true :=
      stepFn_fits (c := s.config) ((State.genFits_iff s).1 hfits g hg)
    rw [seqTick_prime hq hg]
    split
    · exact State.coherent_of_seq_idle rfl hstep rfl (State.decCoherent_of_idle hd) (State.rqFramed_of_append rfl)
    · rw [State.coherent_iff]
      refine ⟨hstep, by simp [State.genMatchesFlags], State.decCoherent_of_idle hd, ?_, hframed⟩
      exact (State.seqCoherent_prime_iff rfl).2 ⟨by omega, by omega, hseeds, hlag, rfl, hd, hf⟩

/-- Settles O48: each of the four transitions a step can be keeps the invariant. The script and the beats already
moved are no part of it. -/
theorem everyStepKeepsCoherence : Obligations.EveryStepKeepsCoherence := by
  intro s t hs h
  rcases step_cases s with ⟨rest, -, hstep⟩ | ⟨rest, -, hstep⟩ | ⟨v, rest, -, hq, hstep⟩ | ⟨-, -, hstep⟩
    | ⟨-, -, hstep⟩ <;> rw [hstep] at h
  · cases h
    exact resetEngine_coherent _
  · cases h
    exact acceptBeat_coherent (s := { s with script := rest }) hs
  · exact onBeat_coherent (s := { s with script := rest, sent := s.sent ++ [v] }) hs hq h
  · cases h
    exact seqTick_coherent hs
  · cases h

end Sys2Proof.Machine
end

section
/-! PROOFS. The bound of the carry along the machine's steps (10_state.md R19): every command but LOAD_STATE keeps a
carry below M, and so does every beat but the one that completes a LOAD_STATE. -/

namespace Sys2Proof.Machine

theorem State.carryBelow_congr {s t : State} (hgen : t.gen = s.gen) (hconfig : t.config = s.config) :
    t.carryBelow = s.carryBelow := by
  simp [State.carryBelow, hgen, hconfig]

theorem exec_carryBelow {i : Instr} {s t : State} (hfits : s.genFits = true) (hbelow : s.carryBelow = true)
    (hi : i.opcode ≠ .loadState) (h : exec i s = .next t) : t.carryBelow = true := by
  have hconfig := (exec_answers_of_next h).config
  cases exec_genOutcome h with
  | kept gen => rwa [State.carryBelow_congr gen hconfig]
  | written g source gen =>
    simpa [State.carryBelow, gen, hconfig] using source.carry_lt hfits hbelow hi

/-- A LOAD_STATE is never performed by its header: it owes L + 1 payload beats (30_encoding.md R62). -/
theorem opcode_ne_loadState_of_no_payload {cfg : Config} {opc : Opcode} (h : opc.payloadBeats cfg = 0) :
    opc ≠ .loadState := by
  rintro rfl
  exact absurd h (Nat.succ_ne_zero _)

theorem onBeat_carryBelow {v : Beat} {s t : State} (hfits : s.genFits = true) (hbelow : s.carryBelow = true)
    (hload : ∀ need buf, s.dec = .collect .loadState need buf → 2 ≤ need) (h : onBeat v s = .next t) :
    t.carryBelow = true := by
  rcases onBeat_cases v s with ⟨-, -, hb⟩ | ⟨-, -, hb⟩ | ⟨-, -, -, hb⟩ | ⟨opc, -, -, -, -, hb⟩
    | ⟨opc, -, -, -, hp, hb⟩ | ⟨opc, need, buf, -, -, -, hb⟩ | ⟨opc, need, buf, -, hd, hn, hb⟩
    <;> rw [hb] at h
  · cases h; exact hbelow
  · exact exec_carryBelow hfits hbelow (by decide) h
  · cases h; exact hbelow
  · cases h; exact hbelow
  · refine exec_carryBelow hfits hbelow ?_ h
    rw [withOperands_opcode]
    exact opcode_ne_loadState_of_no_payload hp
  · cases h; exact hbelow
  · refine exec_carryBelow (s := { s with dec := .idle }) hfits hbelow ?_ h
    rw [withOperands_opcode]
    rintro rfl
    have := hload need buf hd
    omega

theorem seqTick_carryBelow {s : State} (hfits : s.genFits = true) (hbelow : s.carryBelow = true)
    (hsome : s.seq ≠ .idle → s.gen.isSome = true) : (seqTick s).carryBelow = true := by
  cases hq : s.seq with
  | idle => simpa [seqTick, hq] using hbelow
  | prime k opc =>
    obtain ⟨g, hg⟩ := Option.isSome_iff_exists.1 (hsome (by simp [hq]))
    have hstep : (stepFn s.cfg g).gen.carry.toNat < s.cfg.mult.toNat :=
      stepFn_carry_lt (c := s.config) ((State.genFits_iff s).1 hfits g hg) ((State.carryBelow_iff s).1 hbelow g hg)
    rw [seqTick_prime hq hg]
    split <;> exact decide_eq_true hstep

/-- Settles O52: a reset leaves no carry, an accepted beat leaves it as it is, and a beat or a transition of the
sequencer writes what `GenSource` lists, where LOAD_STATE is excluded by the premise. -/
theorem carryStaysBelowTheMultiplier : Obligations.CarryStaysBelowTheMultiplier := by
  intro s t hs hbelow hload h
  obtain ⟨hfits, -, -, hseq, -⟩ := (State.coherent_iff s).1 hs
  rcases step_cases s with ⟨rest, -, hstep⟩ | ⟨rest, -, hstep⟩ | ⟨v, rest, hscript, hq, hstep⟩ | ⟨-, -, hstep⟩
    | ⟨-, -, hstep⟩ <;> rw [hstep] at h
  · cases h
    rfl
  · cases h
    rwa [State.carryBelow_congr (State.acceptBeat_gen _) (State.acceptBeat_config _)]
  · refine onBeat_carryBelow (s := { s with script := rest, sent := s.sent ++ [v] }) hfits hbelow ?_ h
    intro need buf hd
    by_contra hn
    exact hload ⟨hq, ⟨v, rest, hscript⟩, need, buf, hd, by omega⟩
  · cases h
    refine seqTick_carryBelow hfits hbelow fun hq => ?_
    cases hs' : s.seq with
    | idle => exact absurd hs' hq
    | prime k opc =>
      obtain ⟨-, -, -, -, hsome, -⟩ := (State.seqCoherent_prime_iff hs').1 hseq
      exact hsome
  · cases h

end Sys2Proof.Machine
end

section
/-! PROOFS. What no step but a reset takes away: the configuration, which a reset keeps too (10_state.md R30), and
the flags SEEDED and FAULT (R22, R23). -/

namespace Sys2Proof.Machine

/-- `t` has the configuration of `s` and every flag that is 1 in `s`. -/
structure KeepsConfigAndFlags (s t : State) : Prop where
  config : t.config = s.config
  seeded : s.seeded = true → t.seeded = true
  fault : s.fault = true → t.fault = true

theorem Answers.keepsConfigAndFlags {opc : Opcode} {s t : State} (h : Answers opc s t) : KeepsConfigAndFlags s t :=
  ⟨h.config, h.seeded, h.fault⟩

theorem onBeat_keepsConfigAndFlags {v : Beat} {s t : State} (h : onBeat v s = .next t) : KeepsConfigAndFlags s t := by
  rcases onBeat_cases v s with ⟨-, -, hb⟩ | ⟨-, -, hb⟩ | ⟨-, -, -, hb⟩ | ⟨opc, -, -, -, -, hb⟩
    | ⟨opc, -, -, -, -, hb⟩ | ⟨opc, need, buf, -, -, -, hb⟩ | ⟨opc, need, buf, -, -, -, hb⟩
    <;> rw [hb] at h
  · cases h; exact ⟨rfl, id, id⟩
  · exact (exec_answers_of_next h).keepsConfigAndFlags
  · cases h; exact ⟨rfl, id, fun _ => rfl⟩
  · cases h; exact ⟨rfl, id, id⟩
  · exact (exec_answers_of_next h).keepsConfigAndFlags
  · cases h; exact ⟨rfl, id, id⟩
  · obtain ⟨hconfig, hseeded, hfault⟩ := (exec_answers_of_next h).keepsConfigAndFlags
    exact ⟨hconfig, hseeded, hfault⟩

/-- The sequencer sets SEEDED after its last priming step and changes no other flag (41_seeding.md R103). -/
theorem seqTick_keepsConfigAndFlags (s : State) : KeepsConfigAndFlags s (seqTick s) := by
  unfold seqTick
  cases s.seq with
  | idle => exact ⟨rfl, id, id⟩
  | prime k opc =>
    dsimp only
    split
    · exact ⟨rfl, fun _ => rfl, id⟩
    · exact ⟨rfl, id, id⟩

/-- A step is a reset, or it keeps the configuration and the flags. -/
theorem step_reset_or_keepsConfigAndFlags {s t : State} (h : step s = .next t) :
    (∃ rest, s.script = .reset :: rest ∧ t = { s with script := rest }.resetEngine)
      ∨ s.script.head? ≠ some .reset ∧ KeepsConfigAndFlags s t := by
  rcases step_cases s with ⟨rest, hscript, hstep⟩ | ⟨rest, hscript, hstep⟩ | ⟨v, rest, hscript, -, hstep⟩
    | ⟨hscript, -, hstep⟩ | ⟨-, -, hstep⟩ <;> rw [hstep] at h
  · cases h
    exact .inl ⟨rest, hscript, rfl⟩
  · cases h
    exact .inr ⟨by simp [hscript], by simp, by simp, by simp⟩
  · obtain ⟨hconfig, hseeded, hfault⟩ := onBeat_keepsConfigAndFlags h
    exact .inr ⟨by simp [hscript], hconfig, hseeded, hfault⟩
  · cases h
    exact .inr ⟨hscript, seqTick_keepsConfigAndFlags s⟩
  · cases h

/-- Settles O50: a reset writes 0 to both flags, every other step keeps them. -/
theorem onlyResetClearsTheFlags : Obligations.OnlyResetClearsTheFlags := by
  intro s t h
  rcases step_reset_or_keepsConfigAndFlags h with ⟨rest, hscript, rfl⟩ | ⟨hnot, hkeeps⟩
  · exact ⟨fun _ => ⟨rfl, rfl⟩, fun hnot => absurd (by simp [hscript]) hnot⟩
  · exact ⟨fun hreset => absurd hreset hnot, fun _ => ⟨hkeeps.seeded, hkeeps.fault⟩⟩

/-- Settles O51: a reset keeps the configuration too. -/
theorem noStepChangesTheConfiguration : Obligations.NoStepChangesTheConfiguration := by
  intro s t h
  rcases step_reset_or_keepsConfigAndFlags h with ⟨rest, -, rfl⟩ | ⟨-, hkeeps⟩
  · rfl
  · exact hkeeps.config

end Sys2Proof.Machine
end

section
/-! PROOFS. The STATUS and CONFIG registers field by field (10_state.md R28, R29), the product after reset,
and the beats that DEC only collects (R25). -/

namespace Sys2Proof.Machine

/-! ## STATUS -/

theorem statusRegister_eq (s : State) :
    statusRegister s = BitVec.ofNat 64 (s.seeded.toNat + 2 * s.fault.toNat) := by
  unfold statusRegister
  cases s.seeded <;> cases s.fault <;> rfl

/-- Settles O31: READ_STATUS responds with the STATUS register, whatever the state. -/
theorem readStatusAnswersTheFlags : Obligations.ReadStatusAnswersTheFlags := by
  intro s
  rw [← statusRegister_eq]
  rfl

/-! ## CONFIG -/

/-- Lane indices fit their 8-bit fields, since L is at most 16. -/
theorem permBeat_indices {pa pb pc : Nat} (ha : pa < 2 ^ 8) (hb : pb < 2 ^ 8) (hc : pc < 2 ^ 8) :
    permBeat (.indices pa pb pc) = BitVec.ofNat 64 (pa + pb * 2 ^ 8 + pc * 2 ^ 16) := by
  apply BitVec.eq_of_toNat_eq
  simp only [permBeat, toNat_cat, BitVec.ofNat_eq_ofNat, BitVec.toNat_ofNat]
  omega

theorem perm_indices_lt (c : LegalConfig) {pa pb pc : Nat} (hp : c.params.perm = .indices pa pb pc) :
    pa < c.params.lag ∧ pb < c.params.lag ∧ pc < c.params.lag := by
  obtain ⟨hlag, -, -, -, -, -, -, hperm⟩ := (Config.legal_iff_checks _).1 c.isLegal
  obtain ⟨ha, hb, hc, -⟩ := (Config.permLegal_indices_iff hp (Config.lagLegal_iff _ |>.1 hlag).1).1 hperm
  exact ⟨ha, hb, hc⟩

/-- The CONFIG block with beat 0 as a number: on a legal configuration every field is within its bits. -/
theorem configBlock_eq (c : LegalConfig) :
    configBlock c.params =
      [ BitVec.ofNat 64 (c.params.width.bits + c.params.lag * 2 ^ 8 + c.params.batchN * 2 ^ 16 + 6 * 2 ^ 24
          + c.params.oldShift * 2 ^ 32 + (c.params.carryOr.toNat % 2 ^ 8) * 2 ^ 40
          + (granularityBit c.params.fillGranularity).toNat * 2 ^ 48),
        c.params.mult, c.params.carryMask, permBeat c.params.perm, c.params.defaultLane,
        c.params.defaultCarry ] := by
  obtain ⟨-, hlag, -, -, -, -, -, -, -, hshift, -, -, -, -, -, hbatch⟩ := legal_facts c
  have hwidth := width_bits_le c.params.width
  have hgran := (granularityBit c.params.fillGranularity).isLt
  refine congrArg (· :: _) (BitVec.eq_of_toNat_eq ?_)
  simp only [toNat_cat, BitVec.ofNat_eq_ofNat, BitVec.toNat_ofNat, BitVec.toNat_setWidth, Config.primeCount]
  omega

/-- Settles O32: READ_CONFIG responds with the CONFIG block, whose fields do not overlap on a legal configuration. -/
theorem readConfigAnswersTheParameters : Obligations.ReadConfigAnswersTheParameters := by
  intro s cfg gran perm
  have hgran : (granularityBit cfg.fillGranularity).toNat = gran := by
    cases hf : cfg.fillGranularity <;> simp [gran, hf, granularityBit]
  have hperm : permBeat cfg.perm = BitVec.ofNat 64 perm := by
    cases hp : cfg.perm with
    | openFn which => simp [perm, hp, permBeat]
    | indices pa pb pc =>
      obtain ⟨-, hlag, -⟩ := legal_facts s.config
      obtain ⟨ha, hb, hc⟩ := perm_indices_lt s.config hp
      rw [permBeat_indices (by omega) (by omega) (by omega)]
      simp [perm, hp]
  rw [← hgran, ← hperm, ← configBlock_eq s.config]
  rfl

/-! ## The product after reset -/

/-- Settles O44: the reset values are those `State.ofConfig` writes, and the product's OPEN parameters are not among
the fields named. -/
theorem stateAfterReset : Obligations.StateAfterReset :=
  ⟨rfl, rfl, rfl, rfl, rfl, rfl, rfl, rfl, rfl, rfl, rfl⟩

/-! ## Collecting a payload -/

/-- An offered beat is taken while SEQ is idle (20_memory.md R39). -/
theorem step_of_send {s : State} {v : Beat} {rest : List HostMove} (hscript : s.script = .send v :: rest)
    (hseq : s.seq = .idle) : step s = onBeat v { s with script := rest, sent := s.sent ++ [v] } := by
  simp [step, advance, hscript, hseq]

theorem onBeat_of_payload_header {s : State} {v : Beat} {opc : Opcode} (hfault : s.fault = false)
    (hdec : s.dec = .idle) (hheader : decodeHeader s.cfg v = .ok opc) (hpayload : 0 < opc.payloadBeats s.cfg) :
    onBeat v s = .next { s with dec := .collect opc (opc.payloadBeats s.cfg) [] } := by
  simp [onBeat, hfault, hdec, hheader, hpayload]

theorem onBeat_of_payload_owed {s : State} {v : Beat} {opc : Opcode} {need : Nat} {buf : List Beat}
    (hfault : s.fault = false) (hdec : s.dec = .collect opc need buf) (hneed : 2 ≤ need) :
    onBeat v s = .next { s with dec := .collect opc (need - 1) (buf ++ [v]) } := by
  have hmore : 0 < need - 1 := by omega
  simp [onBeat, hfault, hdec, hmore]

/-- Settles O36: the beat is taken, and taking it changes DEC alone in both cases. -/
theorem payloadIsCollectedWithoutEffect : Obligations.PayloadIsCollectedWithoutEffect := by
  intro s v rest hfault hseq hscript
  rw [step_of_send hscript hseq]
  exact ⟨fun opc hdec hheader hpayload => onBeat_of_payload_header hfault hdec hheader hpayload,
    fun opc need buf hdec hneed => onBeat_of_payload_owed hfault hdec hneed⟩

end Sys2Proof.Machine
end

section
/-! PROOFS. The two channels (20_memory.md R37 to R39, R48): what a beat and a transition of the sequencer leave of
them, what each move of the host does to them, and a rising edge as a run of the moves that land at it. -/

namespace Sys2Proof.Machine

/-! ## The engine's own transitions -/

/-- The channels from `s` to `t` when the engine only acts on what it holds: no beat moves, and RQ grows at its end. -/
structure OnlyProduces (s t : State) : Prop where
  script : t.script = s.script
  sent : t.sent = s.sent
  received : t.received = s.received
  rq : ∃ rs, t.rq = s.rq ++ rs

theorem OnlyProduces.received_rq {s t : State} (h : OnlyProduces s t) :
    ∃ rs, t.received ++ t.rq = s.received ++ s.rq ++ rs := by
  obtain ⟨rs, hrq⟩ := h.rq
  exact ⟨rs, by rw [h.received, hrq, List.append_assoc]⟩

theorem Answers.onlyProduces {opc : Opcode} {s t : State} (h : Answers opc s t) : OnlyProduces s t := by
  obtain ⟨code, data, hrq⟩ := h.rq
  exact ⟨h.script, h.sent, h.received, _, hrq⟩

/-- Every beat is acted on, whatever it is and whatever the state. -/
theorem onBeat_onlyProduces (v : Beat) (s : State) : ∃ t, onBeat v s = .next t ∧ OnlyProduces s t := by
  rcases onBeat_cases v s with ⟨-, -, hb⟩ | ⟨-, -, hb⟩ | ⟨-, -, -, hb⟩ | ⟨opc, -, -, -, -, hb⟩
    | ⟨opc, -, -, -, -, hb⟩ | ⟨opc, need, buf, -, -, -, hb⟩ | ⟨opc, need, buf, -, -, -, hb⟩
    <;> rw [hb]
  · exact ⟨_, rfl, rfl, rfl, rfl, _, rfl⟩
  · obtain ⟨t, ht, ha⟩ := exec_answers .readStatus s
    exact ⟨t, ht, ha.onlyProduces⟩
  · exact ⟨_, rfl, rfl, rfl, rfl, _, rfl⟩
  · exact ⟨_, rfl, rfl, rfl, rfl, [], (List.append_nil _).symm⟩
  · obtain ⟨t, ht, ha⟩ := exec_answers (opc.withOperands s.cfg (headerLen v) []) s
    exact ⟨t, ht, ha.onlyProduces⟩
  · exact ⟨_, rfl, rfl, rfl, rfl, [], (List.append_nil _).symm⟩
  · obtain ⟨t, ht, ha⟩ := exec_answers (opc.withOperands s.cfg 0 (buf ++ [v])) { s with dec := .idle }
    obtain ⟨hscript, hsent, hreceived, hrq⟩ := ha.onlyProduces
    exact ⟨t, ht, hscript, hsent, hreceived, hrq⟩

theorem seqTick_of_idle {s : State} (h : s.seq = .idle) : seqTick s = s := by
  simp [seqTick, h]

theorem seqTick_onlyProduces (s : State) : OnlyProduces s (seqTick s) := by
  cases hseq : s.seq with
  | idle =>
    rw [seqTick_of_idle hseq]
    exact ⟨rfl, rfl, rfl, [], (List.append_nil _).symm⟩
  | prime k opc =>
    simp only [seqTick, hseq]
    split
    · exact ⟨rfl, rfl, rfl, _, rfl⟩
    · exact ⟨rfl, rfl, rfl, [], (List.append_nil _).symm⟩

/-! ## The host's moves -/

theorem step_of_reset {s : State} {rest : List HostMove} (hscript : s.script = .reset :: rest) :
    step s = .next { s with script := rest }.resetEngine := by
  simp [step, advance, hscript]

theorem step_of_accept {s : State} {rest : List HostMove} (hscript : s.script = .accept :: rest) :
    step s = .next { s with script := rest }.acceptBeat := by
  simp [step, advance, hscript]

/-- Without a move of the host a sequencer that is not idle moves (41_seeding.md R103). -/
theorem step_of_no_move {s : State} (hscript : s.script = []) (hseq : s.seq ≠ .idle) :
    step s = .next (seqTick s) := by
  cases hq : s.seq with
  | idle => exact absurd hq hseq
  | prime k opc => simp [step, advance, hscript, hq]

theorem State.acceptBeat_of_cons {s : State} {b : RspBeat} {q : List RspBeat} (h : s.rq = b :: q) :
    s.acceptBeat = { s with rq := q, received := s.received ++ [b] } := by
  simp [State.acceptBeat, h]

theorem State.acceptBeat_of_nil {s : State} (h : s.rq = []) : s.acceptBeat = s := by
  simp [State.acceptBeat, h]

@[simp] theorem State.acceptBeat_received (s : State) : s.acceptBeat.received = s.received ++ s.rq.head?.toList := by
  cases h : s.rq with
  | nil => simp [State.acceptBeat_of_nil h]
  | cons b q => simp [State.acceptBeat_of_cons h]

/-- Accepting a beat does not depend on the moves that the host has still to make. -/
theorem State.acceptBeat_with_script (s : State) (moves : List HostMove) :
    { s with script := moves }.acceptBeat = { s.acceptBeat with script := moves } := by
  unfold State.acceptBeat
  split <;> simp_all

/-- Settles O45: the step is `acceptBeat`, by whether RQ holds a beat. -/
theorem acceptMovesTheOldestBeat : Obligations.AcceptMovesTheOldestBeat := by
  intro s rest hscript
  rw [step_of_accept hscript]
  exact ⟨fun b q hrq => congrArg _ (State.acceptBeat_of_cons hrq),
    fun hrq => congrArg _ (State.acceptBeat_of_nil hrq)⟩

/-- Settles O46: a beat accepted passes from RQ to RB, and every other transition but a reset only produces. -/
theorem noResponseBeatIsLost : Obligations.NoResponseBeatIsLost := by
  intro s t h hnot
  rcases step_cases s with ⟨rest, hscript, -⟩ | ⟨rest, -, hstep⟩ | ⟨v, rest, -, -, hstep⟩ | ⟨-, -, hstep⟩
    | ⟨-, -, hstep⟩
  · exact absurd (by rw [hscript]; rfl) hnot
  · cases hstep.symm.trans h
    exact ⟨[], by rw [State.acceptBeat_received_rq, List.append_nil]⟩
  · obtain ⟨u, hu, hproduces⟩ := onBeat_onlyProduces v { s with script := rest, sent := s.sent ++ [v] }
    cases (hstep.trans hu).symm.trans h
    exact hproduces.received_rq
  · cases hstep.symm.trans h
    exact (seqTick_onlyProduces s).received_rq
  · cases hstep.symm.trans h

/-- Settles O47: every transition but the last of `step_cases` has a next state, and each of those has a move of the
host or a sequencer that is not idle. -/
theorem stuckExactlyWithoutHostMoves : Obligations.StuckExactlyWithoutHostMoves := by
  intro s
  suffices h : (s.script = [] ∧ s.seq = .idle ∧ step s = .fault .awaitingHost)
      ∨ ¬(s.script = [] ∧ s.seq = .idle) ∧ ∃ t, step s = .next t by
    rcases h with ⟨hscript, hseq, hstep⟩ | ⟨hmove, t, hstep⟩
    · exact ⟨iff_of_true hstep ⟨hscript, hseq⟩, fun hmove => absurd ⟨hscript, hseq⟩ hmove⟩
    · exact ⟨iff_of_false (by simp [hstep]) hmove, fun _ => ⟨t, hstep⟩⟩
  rcases step_cases s with ⟨rest, hscript, hstep⟩ | ⟨rest, hscript, hstep⟩ | ⟨v, rest, hscript, -, hstep⟩
    | ⟨-, hseq, hstep⟩ | hstuck
  · exact .inr ⟨by simp [hscript], _, hstep⟩
  · exact .inr ⟨by simp [hscript], _, hstep⟩
  · obtain ⟨t, ht, -⟩ := onBeat_onlyProduces v { s with script := rest, sent := s.sent ++ [v] }
    exact .inr ⟨by simp [hscript], t, hstep.trans ht⟩
  · exact .inr ⟨fun h => hseq h.2, _, hstep⟩
  · exact .inl hstuck

/-! ## A rising edge -/

theorem commandMoves_iff (p : HostPins) (s : State) :
    commandMoves p s = true ↔ p.cmdValid = true ∧ p.rst = false ∧ s.seq = .idle := by
  simp [commandMoves, enginePins]

theorem responseMoves_iff (p : HostPins) (s : State) :
    responseMoves p s = true ↔ p.rspReady = true ∧ (enginePins p.rst s).rsp ≠ none := by
  simp [responseMoves, Option.isSome_iff_ne_none]

/-- While SEQ is in PRIME an offered beat waits (10_state.md R26). -/
theorem commandMoves_of_not_idle (p : HostPins) {s : State} (h : s.seq ≠ .idle) : commandMoves p s = false :=
  Bool.eq_false_iff.2 fun hmoves => h ((commandMoves_iff p s).1 hmoves).2.2

/-- `s` once the response beat that moves at the edge, if one does, has moved. -/
def State.takeResponse (p : HostPins) (s : State) : State :=
  if responseMoves p s then s.acceptBeat else s

@[simp] theorem State.takeResponse_config (p : HostPins) (s : State) : (s.takeResponse p).config = s.config := by
  unfold State.takeResponse; split <;> simp
@[simp] theorem State.takeResponse_gen (p : HostPins) (s : State) : (s.takeResponse p).gen = s.gen := by
  unfold State.takeResponse; split <;> simp
@[simp] theorem State.takeResponse_seeded (p : HostPins) (s : State) : (s.takeResponse p).seeded = s.seeded := by
  unfold State.takeResponse; split <;> simp
@[simp] theorem State.takeResponse_seq (p : HostPins) (s : State) : (s.takeResponse p).seq = s.seq := by
  unfold State.takeResponse; split <;> simp
@[simp] theorem State.takeResponse_script (p : HostPins) (s : State) : (s.takeResponse p).script = s.script := by
  unfold State.takeResponse; split <;> simp
@[simp] theorem State.takeResponse_sent (p : HostPins) (s : State) : (s.takeResponse p).sent = s.sent := by
  unfold State.takeResponse; split <;> simp
@[simp] theorem State.takeResponse_received (p : HostPins) (s : State) :
    (s.takeResponse p).received = s.received ++ (if responseMoves p s then s.rq.head?.toList else []) := by
  unfold State.takeResponse; split <;> simp

theorem clockEdge_of_rst {p : HostPins} (hrst : p.rst = true) (s : State) : clockEdge p s = .next s.resetEngine := by
  simp [clockEdge, hrst]

theorem clockEdge_of_command {p : HostPins} {s : State} (h : commandMoves p s = true) :
    clockEdge p s = onBeat p.cmdData { s.takeResponse p with sent := s.sent ++ [p.cmdData] } := by
  obtain ⟨-, hrst, -⟩ := (commandMoves_iff p s).1 h
  rw [← State.takeResponse_sent p s]
  simp [clockEdge, State.takeResponse, hrst, h]

theorem clockEdge_of_no_command {p : HostPins} {s : State} (hrst : p.rst = false) (h : commandMoves p s = false) :
    clockEdge p s = .next (seqTick (s.takeResponse p)) := by
  simp [clockEdge, State.takeResponse, hrst, h]

/-- What an edge adds to CB and RB (20_memory.md R38). -/
theorem clockEdge_moves (p : HostPins) (s : State) :
    ∃ t, clockEdge p s = .next t
      ∧ t.sent = s.sent ++ (if commandMoves p s then [p.cmdData] else [])
      ∧ t.received = s.received ++ (if responseMoves p s then s.rq.head?.toList else []) := by
  cases hrst : p.rst with
  | true => exact ⟨_, clockEdge_of_rst hrst s, by simp [commandMoves, responseMoves, enginePins, hrst]⟩
  | false =>
    cases hcommand : commandMoves p s with
    | true =>
      obtain ⟨t, ht, -, hsent, hreceived, -⟩ :=
        onBeat_onlyProduces p.cmdData { s.takeResponse p with sent := s.sent ++ [p.cmdData] }
      exact ⟨t, (clockEdge_of_command hcommand).trans ht, hsent, by simp [hreceived]⟩
    | false =>
      obtain ⟨-, hsent, hreceived, -⟩ := seqTick_onlyProduces (s.takeResponse p)
      exact ⟨_, clockEdge_of_no_command hrst hcommand, by simp [hsent], by simp [hreceived]⟩

/-- Settles O53: the outputs are read off `enginePins`, and what moves is what `clockEdge_moves` adds. -/
theorem handshakeMovesBeats : Obligations.HandshakeMovesBeats := by
  intro p s
  refine ⟨by simp [commandMoves], responseMoves_iff p s, ?_, ?_, ?_, ?_, clockEdge_moves p s⟩
  · intro hrst
    simp [commandMoves, responseMoves, enginePins, hrst]
  · intro hseq
    simp [enginePins, hseq]
  · intro hrst hseq
    simp [enginePins, hrst, hseq]
  · intro hrst
    simp [enginePins, hrst]

/-- The moves that land at an edge without reset: the response beat's and then the command beat's. -/
theorem edgeMoves_of_no_rst {p : HostPins} (hrst : p.rst = false) (s : State) :
    edgeMoves p s =
      (if responseMoves p s then [.accept] else []) ++ (if commandMoves p s then [.send p.cmdData] else []) := by
  simp [edgeMoves, hrst]

/-- The machine runs the response beat's move as the edge does, whatever moves follow. -/
theorem run_response_move (p : HostPins) (s : State) (moves : List HostMove) :
    Host.Core.run Sys2Proof.core (if responseMoves p s then [HostMove.accept] else []).length
        { s with script := (if responseMoves p s then [HostMove.accept] else []) ++ moves } =
      .next { s.takeResponse p with script := moves } := by
  unfold State.takeResponse
  split
  · rw [List.length_singleton, run_one, step_of_accept rfl]
    exact congrArg _ (State.acceptBeat_with_script s moves)
  · rfl

/-- The run of the moves that land at an edge takes the response beat, and goes on with the command beat. -/
theorem run_edgeMoves {p : HostPins} (hrst : p.rst = false) (s : State) (n : Nat) :
    Host.Core.run Sys2Proof.core ((edgeMoves p s).length + n) { s with script := edgeMoves p s } =
      Host.Core.run Sys2Proof.core ((if commandMoves p s then [HostMove.send p.cmdData] else []).length + n)
        { s.takeResponse p with script := if commandMoves p s then [.send p.cmdData] else [] } := by
  rw [edgeMoves_of_no_rst hrst, List.length_append, Nat.add_assoc]
  exact run_add_of_next _ _ (run_response_move p s _)

theorem State.with_script_of_eq {s : State} {moves : List HostMove} (h : s.script = moves) :
    { s with script := moves } = s := by
  subst h; rfl

theorem clockEdge_eq_run_of_idle {p : HostPins} {s : State} (hscript : s.script = []) (hrst : p.rst = false)
    (hseq : s.seq = .idle) :
    clockEdge p s = Host.Core.run Sys2Proof.core (edgeMoves p s).length { s with script := edgeMoves p s } := by
  rw [← Nat.add_zero (edgeMoves p s).length, run_edgeMoves hrst]
  have hnil : { s.takeResponse p with script := [] } = s.takeResponse p := State.with_script_of_eq (by simp [hscript])
  cases hcommand : commandMoves p s with
  | true =>
    have hseq' : ({ s.takeResponse p with script := [.send p.cmdData] } : State).seq = .idle := by simp [hseq]
    rw [clockEdge_of_command hcommand]
    simp only [if_true, List.length_singleton, Nat.add_zero]
    rw [run_one, step_of_send rfl hseq']
    simp only [State.takeResponse_sent]
    rw [← hnil]
  | false =>
    rw [clockEdge_of_no_command hrst hcommand, seqTick_of_idle (by simp [hseq])]
    simp only [Bool.false_eq_true, if_false, List.length_nil, Nat.add_zero]
    rw [hnil]
    rfl

theorem clockEdge_eq_run_of_prime {p : HostPins} {s : State} (hscript : s.script = []) (hrst : p.rst = false)
    (hseq : s.seq ≠ .idle) :
    clockEdge p s = Host.Core.run Sys2Proof.core ((edgeMoves p s).length + 1) { s with script := edgeMoves p s } := by
  have hcommand := commandMoves_of_not_idle p hseq
  rw [run_edgeMoves hrst, clockEdge_of_no_command hrst hcommand]
  simp only [hcommand, Bool.false_eq_true, if_false, List.length_nil, Nat.zero_add]
  rw [State.with_script_of_eq (by simp [hscript]), run_one, step_of_no_move (by simp [hscript]) (by simp [hseq])]

/-- Settles O54: an edge with reset is the reset's step, one with SEQ idle the steps of the moves, and one in PRIME
these and then the sequencer's row of the table. -/
theorem clockEdgeIsARunOfMoves : Obligations.ClockEdgeIsARunOfMoves := by
  intro p s hscript
  constructor
  · intro h
    cases hrst : p.rst with
    | true =>
      rw [clockEdge_of_rst hrst, edgeMoves, if_pos hrst, List.length_singleton, run_one, step_of_reset rfl,
        ← State.with_script_of_eq hscript]
    | false => exact clockEdge_eq_run_of_idle hscript hrst (by simpa [hrst] using h)
  · intro k opc hrst hseq
    have hidle : s.seq ≠ .idle := by simp [hseq]
    refine ⟨clockEdge_eq_run_of_prime hscript hrst hidle, fun g hg => ?_⟩
    refine ⟨_, clockEdge_of_no_command hrst (commandMoves_of_not_idle p hidle), ?_⟩
    rw [seqTick_prime (s := s.takeResponse p) (by simpa using hseq) (by simpa using hg)]
    by_cases hk : k ≤ 1
    · simp only [if_pos hk]
      exact ⟨by simp, by simp, fun hmore => absurd hmore (by omega), fun _ => ⟨rfl, rfl⟩⟩
    · simp only [if_neg hk]
      exact ⟨by simp, by simp, fun _ => ⟨by simp, by simp⟩, fun hlast => absurd hlast hk⟩

end Sys2Proof.Machine
end

section
/-! PROOFS. The response of every command (20_memory.md R46; 30_encoding.md R62, R64): one, of the length that the
opcode map gives; and the commands that leave the same state when they are repeated (20_memory.md R49). -/

namespace Sys2Proof.Machine

/-! ## One response of the right length -/

/-- From `s` to `t` one response to `opc` is produced, with `n` data beats when it is OK and none otherwise. -/
def AnswersWith (opc : Opcode) (n : Nat) (s t : State) : Prop :=
  ∃ code data, t.rq = s.rq ++ responseBeats code opc.code data ∧ data.length = if code = .ok then n else 0

theorem whenSeeded_answersWith {opc : Opcode} {f : Gen → Gen × List Beat} {n : Nat} {s : State}
    (hn : ∀ g, s.liveGen = some g → (f g).2.length = n) : AnswersWith opc n s (whenSeeded opc f s) := by
  rcases whenSeeded_cases opc f s with ⟨-, h⟩ | ⟨g, hlive, h⟩ <;> rw [h]
  · exact ⟨_, _, rfl, rfl⟩
  · exact ⟨_, _, rfl, hn g hlive⟩

theorem seedWith_answersWith (opc : Opcode) (g : Gen) (s : State) : AnswersWith opc 0 s (seedWith opc g s) := by
  by_cases h : s.cfg.lag = 3
  · rw [seedWith_of_lag h]
    exact ⟨_, _, rfl, rfl⟩
  · rw [seedWith_of_not_lag h]
    exact ⟨_, _, rfl, rfl⟩

theorem packBytes_length (bytes : List Byte) : (packBytes bytes).length = (bytes.length + 7) / 8 := by
  simp [packBytes]

/-- A fill of `len` bytes has `ceil(len / 8)` data beats: its steps give bytes enough (42_serializer.md R107, R108). -/
theorem fillBytes_length (c : LegalConfig) (len : Nat) (g : Gen) :
    (fillBytes c.params len g).2.length = (len + 7) / 8 := by
  have henough := le_stepsFor_mul c len
  simp only [fillBytes, packBytes_length, List.length_take, streamBytes_length, runSteps_length]
  rw [Nat.min_eq_left henough]

/-- STORE_STATE sends the lanes and the carry (43_state_io.md R117). -/
theorem storeBeats_length {cfg : Config} {g : Gen} (h : g.fits cfg = true) : (storeBeats g).length = cfg.lag + 1 := by
  obtain ⟨hlanes, -⟩ := (Gen.fits_iff cfg g).1 h
  simp [storeBeats, hlanes]

/-- Every command's response has the length of the opcode map. STORE_STATE alone needs the lanes to fit. -/
theorem exec_answersWith {i : Instr} {s t : State} (hfits : s.genFits = true) (h : exec i s = .next t) :
    AnswersWith i.opcode (i.opcode.dataBeats s.cfg i.len) s t := by
  cases i <;> cases h
  case step => exact whenSeeded_answersWith fun _ _ => rfl
  case batch => exact whenSeeded_answersWith fun _ _ => runSteps_length _ _ _
  case nextU32 => exact whenSeeded_answersWith fun _ _ => rfl
  case nextU64 => exact whenSeeded_answersWith fun _ _ => rfl
  case fill len => exact whenSeeded_answersWith fun g _ => fillBytes_length s.config len.toNat g
  case tryFill len => exact whenSeeded_answersWith fun g _ => fillBytes_length s.config len.toNat g
  case seedKeys k1 k2 => exact seedWith_answersWith _ _ _
  case seedBytes bytes => exact seedWith_answersWith _ _ _
  case loadState lanes carry => exact ⟨_, _, rfl, rfl⟩
  case storeState =>
    refine whenSeeded_answersWith fun g hlive => ?_
    obtain ⟨-, hgen⟩ := liveGen_eq_some hlive
    exact storeBeats_length ((State.genFits_iff s).1 hfits g hgen)
  case readStatus => exact ⟨_, _, rfl, rfl⟩
  case readConfig => exact ⟨_, _, rfl, rfl⟩

/-! ## FAULT -/

theorem whenSeeded_fault (opc : Opcode) (f : Gen → Gen × List Beat) (s : State) :
    (whenSeeded opc f s).fault = s.fault := by
  rcases whenSeeded_cases opc f s with ⟨-, h⟩ | ⟨g, -, h⟩ <;> rw [h] <;> rfl

theorem seedWith_fault {opc : Opcode} {g : Gen} {s : State} (hlag : s.cfg.lag = 3) :
    (seedWith opc g s).fault = s.fault := by
  rw [seedWith_of_lag hlag]
  rfl

/-- The seed commands exist only where L = 3 (30_encoding.md R61). -/
theorem lag_of_wellFormed_seed {cfg : Config} {i : Instr} (hwf : i.wellFormed cfg = true)
    (hseeds : i.opcode.seeds = true) : cfg.lag = 3 := by
  cases i <;> cases hseeds
  case seedKeys k1 k2 =>
    simp only [Instr.wellFormed, Bool.and_eq_true, decide_eq_true_eq] at hwf
    exact hwf.1.1
  case seedBytes bytes =>
    simp only [Instr.wellFormed, Bool.and_eq_true, decide_eq_true_eq] at hwf
    exact hwf.1

/-- A well-formed command raises no fault: only an illegal header does (60_exceptions.md R123). -/
theorem exec_fault_of_wellFormed {i : Instr} {s t : State} (hwf : i.wellFormed s.cfg = true)
    (h : exec i s = .next t) : t.fault = s.fault := by
  cases i <;> cases h
  case step => exact whenSeeded_fault _ _ _
  case batch => exact whenSeeded_fault _ _ _
  case nextU32 => exact whenSeeded_fault _ _ _
  case nextU64 => exact whenSeeded_fault _ _ _
  case fill len => exact whenSeeded_fault _ _ _
  case tryFill len => exact whenSeeded_fault _ _ _
  case seedKeys k1 k2 => exact seedWith_fault (lag_of_wellFormed_seed hwf rfl)
  case seedBytes bytes => exact seedWith_fault (lag_of_wellFormed_seed hwf rfl)
  case loadState lanes carry => rfl
  case storeState => exact whenSeeded_fault _ _ _
  case readStatus => rfl
  case readConfig => rfl

/-- Settles O37: the response's length is `exec_answersWith`, FAULT is `exec_fault_of_wellFormed`, and the rest is what
every command leaves alone. -/
theorem everyCommandAnswersOnce : Obligations.EveryCommandAnswersOnce := by
  intro i s hs
  obtain ⟨hfits, -⟩ := (State.coherent_iff s).1 hs
  obtain ⟨t, ht, ha⟩ := exec_answers i s
  obtain ⟨code, data, hrq, hlength⟩ := exec_answersWith hfits ht
  exact ⟨t, code, data, ht, hrq, hlength, ha.config, ha.dec, ha.script, ha.sent, ha.received,
    fun hwf => exec_fault_of_wellFormed hwf ht⟩

/-! ## Reads and loads -/

/-- STORE_STATE only reads the lanes and the carry. -/
theorem execStoreState_onlyResponds (s : State) : ∃ rs, exec .storeState s = .next { s with rq := s.rq ++ rs } := by
  have h := whenSeeded_cases .storeState (fun g => (g, storeBeats g)) s
  rcases h with ⟨-, h⟩ | ⟨g, hlive, h⟩
  · exact ⟨_, congrArg _ h⟩
  · obtain ⟨-, hgen⟩ := liveGen_eq_some hlive
    rw [← hgen] at h
    exact ⟨_, congrArg _ h⟩

/-- What a seed command loads depends on the configuration alone, so a second one writes what the first did. -/
theorem seedWith_twice {opc : Opcode} (load : Config → Gen) {s t : State} (hlag : s.cfg.lag = 3)
    (ht : t = seedWith opc (load s.cfg) s) :
    seedWith opc (load t.cfg) t = { t with rq := (seedWith opc (load t.cfg) t).rq } := by
  rw [seedWith_of_lag hlag] at ht
  have hlag' : t.cfg.lag = 3 := by
    rw [ht]
    exact hlag
  rw [seedWith_of_lag hlag', ht]
  rfl

/-- Settles O38: STORE_STATE is the one read that looks at the lanes, and a well-formed load is the same whatever
it replaces. -/
theorem readsAndLoadsAreIdempotent : Obligations.ReadsAndLoadsAreIdempotent := by
  intro i s
  constructor
  · intro hread
    cases i <;> simp [Instr.opcode] at hread
    case storeState => exact execStoreState_onlyResponds s
    case readStatus => exact ⟨_, rfl⟩
    case readConfig => exact ⟨_, rfl⟩
  · intro hload hwf
    cases i <;> simp [Instr.opcode] at hload
    case seedKeys k1 k2 =>
      have hlag := lag_of_wellFormed_seed hwf rfl
      exact ⟨_, _, rfl, rfl, seedWith_twice (fun cfg => loadKeys cfg k1 k2) hlag rfl⟩
    case seedBytes bytes =>
      have hlag := lag_of_wellFormed_seed hwf rfl
      exact ⟨_, _, rfl, rfl, seedWith_twice (fun cfg => loadSeed cfg bytes) hlag rfl⟩
    case loadState lanes carry => exact ⟨_, _, rfl, rfl, rfl⟩

end Sys2Proof.Machine
end

section
/-! PROOFS. A stream of encoded commands (20_memory.md R52; 60_exceptions.md R126): the operands come back from the
payload, the beats of one command perform it, and commands follow one another. -/

namespace Sys2Proof.Machine

/-! ## The operands of an encoded command -/

/-- Byte i of a packed stream is byte i mod 8 of beat i div 8 (30_encoding.md R67, R73). -/
theorem byteOf_packBytes (bytes : List Byte) {i : Nat} (hi : i < bytes.length) :
    byteOf ((packBytes bytes).getD (i / 8) 0) (i % 8) = bytes.getD i 0 := by
  have hbeat : i / 8 < (bytes.length + 7) / 8 := by omega
  have hchunk : ((bytes.drop (8 * (i / 8))).take 8).length ≤ 8 := List.length_take_le _ _
  have hgetD : (packBytes bytes).getD (i / 8) 0 =
      BitVec.ofNat 64 (littleEndianValue ((bytes.drop (8 * (i / 8))).take 8)) := by
    simp [packBytes, hbeat]
  rw [hgetD, byteOf_littleEndianValue hchunk]
  simp only [List.getD_eq_getElem?_getD]
  rw [List.getElem?_take_of_lt (Nat.mod_lt i (by decide)), List.getElem?_drop, Nat.div_add_mod]

/-- The bytes of packed beats are the packed bytes, and then the unused high bytes. -/
theorem take_unpackBytes_packBytes (bytes : List Byte) : (unpackBytes (packBytes bytes)).take bytes.length = bytes := by
  apply List.ext_getElem
  · rw [List.length_take, unpackBytes_length, packBytes_length]
    omega
  · intro i _ hi
    have hbeats : i < 8 * (packBytes bytes).length := by
      rw [packBytes_length]
      omega
    have hbyte := (unpackBytes_getD _ hbeats).trans (byteOf_packBytes bytes hi)
    rw [← unpackBytes_length] at hbeats
    rw [List.getElem_take]
    simpa only [List.getD_eq_getElem, hi, hbeats] using hbyte

/-- The lanes come back from a LOAD_STATE's payload beats, as `loadGen` takes them. -/
theorem payloadWords_loadState {cfg : Config} {lanes : List Word} {carry : Word}
    (h : (⟨lanes, carry⟩ : Gen).fits cfg = true) :
    ((List.range cfg.lag).map fun i => payloadWord cfg.width ((lanes ++ [carry]).getD i 0)) = lanes := by
  obtain ⟨hlength, -⟩ := (Gen.fits_iff cfg _).1 h
  refine Eq.trans (List.map_congr_left fun i hi => ?_) (congrArg Gen.lanes (loadGen_of_fits h))
  have hi' : i < lanes.length := by simpa [hlength] using hi
  rw [List.getD_append _ _ _ _ hi']

/-- The payload of a well-formed command gives its operands back (30_encoding.md R66, R67, R77). -/
theorem withOperands_payload {cfg : Config} {i : Instr} (hwf : i.wellFormed cfg = true) :
    i.opcode.withOperands cfg i.len i.payload = i := by
  cases i with
  | step => rfl
  | batch => rfl
  | nextU32 => rfl
  | nextU64 => rfl
  | fill len => rfl
  | tryFill len => rfl
  | seedKeys k1 k2 =>
    simp only [Instr.wellFormed, Bool.and_eq_true] at hwf
    obtain ⟨⟨-, h1⟩, h2⟩ := hwf
    exact congrArg₂ Instr.seedKeys (payloadWord_of_fits h1) (payloadWord_of_fits h2)
  | seedBytes bytes =>
    simp only [Instr.wellFormed, Bool.and_eq_true, decide_eq_true_eq] at hwf
    obtain ⟨-, hlength⟩ := hwf
    have hbytes := take_unpackBytes_packBytes bytes
    rw [hlength] at hbytes
    exact congrArg Instr.seedBytes hbytes
  | loadState lanes carry =>
    have hfits : (⟨lanes, carry⟩ : Gen).fits cfg = true := hwf
    obtain ⟨hlength, -, hcarry⟩ := (Gen.fits_iff cfg _).1 hfits
    have hlast : (lanes ++ [carry]).getD cfg.lag 0 = carry := by simp [← hlength]
    exact congrArg₂ Instr.loadState (payloadWords_loadState hfits)
      ((congrArg _ hlast).trans (payloadWord_of_fits ((fits_iff _ _).2 hcarry)))
  | storeState => rfl
  | readStatus => rfl
  | readConfig => rfl

theorem payload_length {c : LegalConfig} {i : Instr} (hwf : i.wellFormed c.params = true) :
    i.payload.length = i.opcode.payloadBeats c.params := by
  cases i with
  | seedBytes bytes => exact Laws.PayloadLength.seedBytes bytes c hwf
  | loadState lanes carry => exact Laws.PayloadLength.loadState lanes carry c hwf
  | _ => rfl

/-- LEN is 0 in every header but that of FILL and TRY_FILL (30_encoding.md R59). -/
theorem len_of_not_takesLen {i : Instr} (h : i.opcode.takesLen = false) : i.len = 0 := by
  cases i with
  | fill len => exact Laws.LenField.fill len h
  | tryFill len => exact Laws.LenField.tryFill len h
  | _ => rfl

/-- FILL and TRY_FILL have no payload, so a header that owes beats has LEN 0. -/
theorem takesLen_of_payloadBeats {cfg : Config} {opc : Opcode} (h : 0 < opc.payloadBeats cfg) :
    opc.takesLen = false := by
  cases opc with
  | fill => exact absurd h (by simp [Opcode.payloadBeats])
  | tryFill => exact absurd h (by simp [Opcode.payloadBeats])
  | _ => rfl

theorem decodeHeader_encode {cfg : Config} {i : Instr} (hwf : i.wellFormed cfg = true) :
    decodeHeader cfg (headerBeat i.opcode i.len) = .ok i.opcode :=
  decodeHeader_headerBeat cfg i.opcode i.len len_of_not_takesLen (lag_of_wellFormed_seed hwf)

/-! ## The beats of one command -/

theorem onBeat_of_command_header {s : State} {v : Beat} {opc : Opcode} (hfault : s.fault = false)
    (hdec : s.dec = .idle) (hheader : decodeHeader s.cfg v = .ok opc) (hpayload : opc.payloadBeats s.cfg = 0) :
    onBeat v s = exec (opc.withOperands s.cfg (headerLen v) []) s := by
  simp [onBeat, hfault, hdec, hheader, hpayload]

theorem onBeat_of_payload_complete {s : State} {v : Beat} {opc : Opcode} {buf : List Beat} (hfault : s.fault = false)
    (hdec : s.dec = .collect opc 1 buf) :
    onBeat v s = exec (opc.withOperands s.cfg 0 (buf ++ [v])) { s with dec := .idle } := by
  simp [onBeat, hfault, hdec]

/-- The payload beats that are owed, offered in order, are collected and the last one performs the command. -/
theorem run_payload {opc : Opcode} (v : Beat) (vs buf : List Beat) {rest : List HostMove} {s : State}
    (hfault : s.fault = false) (hseq : s.seq = .idle) (hdec : s.dec = .collect opc (vs.length + 1) buf)
    (hscript : s.script = (v :: vs).map HostMove.send ++ rest) :
    Host.Core.run Sys2Proof.core (vs.length + 1) s =
      exec (opc.withOperands s.cfg 0 (buf ++ v :: vs))
        { s with dec := .idle, script := rest, sent := s.sent ++ v :: vs } := by
  induction vs generalizing v buf s with
  | nil =>
    exact (run_one s).trans ((step_of_send hscript hseq).trans (onBeat_of_payload_complete hfault hdec))
  | cons w ws ih =>
    have howed : 2 ≤ (w :: ws).length + 1 := by simp
    have hstep := (step_of_send hscript hseq).trans (onBeat_of_payload_owed hfault hdec howed)
    have hrest := ih w (buf ++ [v])
      (s := { s with
        dec := .collect opc (ws.length + 1) (buf ++ [v])
        script := (w :: ws).map HostMove.send ++ rest
        sent := s.sent ++ [v] }) hfault hseq rfl rfl
    simp only [List.append_assoc, List.singleton_append] at hrest
    exact (run_succ_of_next hstep _).trans hrest

/-- The beats of a well-formed command, offered at a command boundary, perform it once. -/
theorem run_encode {i : Instr} {s : State} {rest : List HostMove} (hfault : s.fault = false) (hdec : s.dec = .idle)
    (hseq : s.seq = .idle) (hwf : i.wellFormed s.cfg = true)
    (hscript : s.script = (encode i).map HostMove.send ++ rest) :
    Host.Core.run Sys2Proof.core (encode i).length s =
      exec i { s with script := rest, sent := s.sent ++ encode i } := by
  have hlength : i.payload.length = i.opcode.payloadBeats s.cfg := payload_length (c := s.config) hwf
  have hheader := decodeHeader_encode hwf
  have hoperands := withOperands_payload hwf
  have hstep := step_of_send (rest := i.payload.map HostMove.send ++ rest) hscript hseq
  unfold encode
  cases hpayload : i.payload with
  | nil =>
    rw [hpayload] at hlength hoperands hstep
    have hbeat := onBeat_of_command_header
      (s := { s with script := rest, sent := s.sent ++ [headerBeat i.opcode i.len] }) hfault hdec hheader hlength.symm
    rw [headerLen_headerBeat, hoperands] at hbeat
    exact (run_one s).trans (hstep.trans hbeat)
  | cons v vs =>
    have hneed : i.opcode.payloadBeats s.cfg = vs.length + 1 := by rw [← hlength, hpayload, List.length_cons]
    have hpos : 0 < i.opcode.payloadBeats s.cfg := by omega
    have hlen : i.len = 0 := len_of_not_takesLen (takesLen_of_payloadBeats hpos)
    rw [hpayload] at hstep hoperands
    have hcollect := hstep.trans (onBeat_of_payload_header hfault hdec hheader hpos)
    have hrun := run_payload v vs []
      (s := { s with
        dec := .collect i.opcode (vs.length + 1) []
        script := (v :: vs).map HostMove.send ++ rest
        sent := s.sent ++ [headerBeat i.opcode i.len] }) hfault hseq rfl rfl
    rw [hneed] at hcollect
    rw [List.nil_append, ← hlen, hoperands, List.append_assoc, List.singleton_append, ← hdec] at hrun
    exact (run_succ_of_next hcollect _).trans hrun

/-! ## Commands one after another -/

/-- A command looks at no move of the host and at no beat that has moved. -/
theorem whenSeeded_with_channel (opc : Opcode) (f : Gen → Gen × List Beat) (s : State) (moves : List HostMove)
    (beats : List Beat) :
    whenSeeded opc f { s with script := moves, sent := beats } =
      { whenSeeded opc f s with script := moves, sent := beats } := by
  rcases whenSeeded_cases opc f s with ⟨hlive, h⟩ | ⟨g, hlive, h⟩ <;> rw [h]
  · rw [whenSeeded_of_unseeded (s := { s with script := moves, sent := beats }) hlive]
    rfl
  · rw [whenSeeded_of_live (s := { s with script := moves, sent := beats }) hlive]
    rfl

theorem seedWith_with_channel (opc : Opcode) (g : Gen) (s : State) (moves : List HostMove) (beats : List Beat) :
    seedWith opc g { s with script := moves, sent := beats } =
      { seedWith opc g s with script := moves, sent := beats } := by
  by_cases hlag : s.cfg.lag = 3
  · rw [seedWith_of_lag hlag, seedWith_of_lag (s := { s with script := moves, sent := beats }) hlag]
    rfl
  · rw [seedWith_of_not_lag hlag, seedWith_of_not_lag (s := { s with script := moves, sent := beats }) hlag]
    rfl

/-- What a command does is the same whatever the host has sent and has still to do. -/
theorem exec_with_channel {i : Instr} {s t : State} (h : exec i s = .next t) (moves : List HostMove)
    (beats : List Beat) :
    exec i { s with script := moves, sent := beats } = .next { t with script := moves, sent := beats } := by
  cases i <;> cases h
  case step => exact congrArg _ (whenSeeded_with_channel _ _ s moves beats)
  case batch => exact congrArg _ (whenSeeded_with_channel _ _ s moves beats)
  case nextU32 => exact congrArg _ (whenSeeded_with_channel _ _ s moves beats)
  case nextU64 => exact congrArg _ (whenSeeded_with_channel _ _ s moves beats)
  case fill len => exact congrArg _ (whenSeeded_with_channel _ _ s moves beats)
  case tryFill len => exact congrArg _ (whenSeeded_with_channel _ _ s moves beats)
  case seedKeys k1 k2 => exact congrArg _ (seedWith_with_channel _ _ s moves beats)
  case seedBytes bytes => exact congrArg _ (seedWith_with_channel _ _ s moves beats)
  case loadState lanes carry => rfl
  case storeState => exact congrArg _ (whenSeeded_with_channel _ _ s moves beats)
  case readStatus => rfl
  case readConfig => rfl

/-- A command performed while SEQ is idle leaves it idle (20_memory.md R52: it is one atomic transition). -/
theorem exec_seq_idle {i : Instr} {s t : State} (hseq : s.seq = .idle) (h : exec i s = .next t) : t.seq = .idle := by
  cases exec_genOutcome h with
  | kept gen seeded seq => exact seq.trans hseq
  | written g source gen seeded seq => exact seq.elim (·.trans hseq) id

theorem execAll_cons_of_next {i : Instr} {is : List Instr} {s t : State} (h : exec i s = .next t) :
    execAll (i :: is) s = execAll is t := by
  simp only [execAll, h]

/-- Settles O41, by induction on the commands: the first one's beats perform it (`run_encode`) and leave the engine at
a command boundary, not faulted, with the beats of the others still offered. -/
theorem commandStreamRunsInOrder : Obligations.CommandStreamRunsInOrder := by
  intro is
  induction is with
  | nil =>
    intro s rest hfault hdec hseq _ hscript
    refine ⟨s, ?_, rfl, hfault, hdec, hseq, hscript⟩
    subst hscript
    simp [execAll]
  | cons i is ih =>
    intro s rest hfault hdec hseq hwf hscript
    rw [List.flatMap_cons, List.map_append, List.append_assoc] at hscript
    have hwfi := hwf i List.mem_cons_self
    obtain ⟨u, hu, ha⟩ := exec_answers i s
    have hcfg : u.cfg = s.cfg := congrArg LegalConfig.params ha.config
    have hfaultu : u.fault = false := (exec_fault_of_wellFormed hwfi hu).trans hfault
    have hdecu : u.dec = .idle := ha.dec.trans hdec
    have hsequ : u.seq = .idle := exec_seq_idle hseq hu
    have hwfu : ∀ j ∈ is, j.wellFormed u.cfg = true := fun j hj => hcfg ▸ hwf j (List.mem_cons_of_mem i hj)
    have hrun := (run_encode hfault hdec hseq hwfi hscript).trans (exec_with_channel hu _ _)
    obtain ⟨t, hall, hrest, hend⟩ := ih
      { u with script := (is.flatMap encode).map HostMove.send ++ rest, sent := s.sent ++ encode i }
      rest hfaultu hdecu hsequ hwfu rfl
    refine ⟨t, ?_, ?_, hend⟩
    · rw [execAll_cons_of_next (exec_with_channel hu _ _), ← hall, List.flatMap_cons, List.append_assoc]
    · rw [List.flatMap_cons, List.length_append, run_add_of_next _ _ hrun, hrest]

end Sys2Proof.Machine
end

section
/-! PROOFS. Header beats, payload beats and encoded commands (30_encoding.md R59 to R69, R77): which headers are
accepted, what a header with its payload decodes to, and that decoding and encoding undo each other. -/

namespace Sys2Proof

open Machine

/-! ## Headers -/

/-- `LegalHeader(h)` for one opcode (30_encoding.md R61). -/
theorem decodeHeader_ok_iff (cfg : Config) (h : Beat) (o : Opcode) :
    decodeHeader cfg h = .ok o ↔
      headerOpc h = o.code ∧ headerRsv h = 0 ∧ (o.takesLen = false → headerLen h = 0)
        ∧ (o.seeds = true → cfg.lag = 3) := by
  constructor
  · intro hd
    obtain ⟨hbeat, hlen, hseeds⟩ := decodeHeader_ok hd
    refine ⟨?_, ?_, hlen, hseeds⟩ <;> rw [← hbeat]
    · exact headerOpc_headerBeat o _
    · exact headerRsv_headerBeat o _
  · rintro ⟨hopc, hrsv, hlen, hseeds⟩
    have hbeat : h = headerBeat o (headerLen h) := by
      have e := beat_fields h
      rwa [hopc, hrsv] at e
    rw [hbeat]
    exact decodeHeader_headerBeat cfg o _ hlen hseeds

/-- The opcode values are those of the opcode map (30_encoding.md R62). -/
theorem mem_opcodeValues_iff (v : BitVec 8) :
    v ∈ ([0x01, 0x02, 0x03, 0x04, 0x05, 0x06, 0x10, 0x11, 0x20, 0x21, 0x30, 0x31] : List (BitVec 8)) ↔
      ∃ o : Opcode, v = o.code := by
  constructor
  · intro hv
    obtain ⟨o, -, ho⟩ := List.mem_map.1 (show v ∈ Opcode.all.map Opcode.code from hv)
    exact ⟨o, ho.symm⟩
  · rintro ⟨o, rfl⟩
    cases o <;> decide

/-- FILL and TRY_FILL are the opcodes with a LEN operand (30_encoding.md R59). -/
theorem code_mem_lenOpcodes_iff (o : Opcode) :
    o.code ∈ ([0x05, 0x06] : List (BitVec 8)) ↔ o.takesLen = true := by
  cases o <;> decide

/-- SEED_KEYS and SEED_BYTES are the opcodes that need L = 3 (30_encoding.md R61). -/
theorem code_mem_seedOpcodes_iff (o : Opcode) :
    o.code ∈ ([0x10, 0x11] : List (BitVec 8)) ↔ o.seeds = true := by
  cases o <;> decide

/-- Settles O3: the clauses of R61 name the opcode by its value; `decodeHeader_ok_iff` has them for each opcode. -/
theorem headerAcceptedExactlyWhenLegal : Obligations.HeaderAcceptedExactlyWhenLegal := by
  intro cfg h
  change (∃ o, decodeHeader cfg h = .ok o) ↔
    headerOpc h ∈ _ ∧ headerRsv h = 0 ∧ (headerOpc h ∈ _ ∨ headerLen h = 0) ∧ (headerOpc h ∉ _ ∨ cfg.lag = 3)
  rw [mem_opcodeValues_iff]
  constructor
  · rintro ⟨o, hd⟩
    obtain ⟨hopc, hrsv, hlen, hseeds⟩ := (decodeHeader_ok_iff cfg h o).1 hd
    rw [hopc, code_mem_lenOpcodes_iff, code_mem_seedOpcodes_iff]
    refine ⟨⟨o, rfl⟩, hrsv, ?_, ?_⟩
    · exact or_iff_not_imp_left.2 fun ht => hlen (Bool.eq_false_iff.2 ht)
    · exact not_or_of_imp hseeds
  · rintro ⟨⟨o, hopc⟩, hrsv, hlen, hseeds⟩
    rw [hopc, code_mem_lenOpcodes_iff] at hlen
    rw [hopc, code_mem_seedOpcodes_iff] at hseeds
    refine ⟨o, (decodeHeader_ok_iff cfg h o).2 ⟨hopc, hrsv, fun ht => hlen.resolve_left (by simp [ht]), fun hs => ?_⟩⟩
    exact hseeds.resolve_left (not_not.2 hs)

/-! ## A header and its payload -/

/-- What a header made for an opcode and the payload it requires decode to. -/
theorem decode_headerBeat (cfg : Config) (o : Opcode) {len : BitVec 32} {payload : List Beat}
    (hlen : o.takesLen = false → len = 0) (hseeds : o.seeds = true → cfg.lag = 3)
    (hpayload : payload.length = o.payloadBeats cfg) :
    decode cfg (headerBeat o len :: payload) = .ok (o.withOperands cfg len payload) := by
  simp only [decode, decodeHeader_headerBeat cfg o len hlen hseeds, hpayload, if_true, headerLen_headerBeat]

/-- Settles O1: the header is accepted with its opcode and LEN, the payload has the length that the opcode requires,
and the operands come back from it (`withOperands_payload`). -/
theorem decodeOfEncodeIsTheCommand : Obligations.DecodeOfEncodeIsTheCommand := by
  intro c i hwf
  have hdecode := decode_headerBeat c.params i.opcode len_of_not_takesLen (lag_of_wellFormed_seed hwf)
    (payload_length hwf)
  rw [withOperands_payload hwf] at hdecode
  exact hdecode

/-- An illegal header is refused for its own reason, whatever follows it. -/
theorem decode_of_header_error {cfg : Config} {h : Beat} {payload : List Beat} {e : DecodeError}
    (hheader : decodeHeader cfg h = .error e) : decode cfg (h :: payload) = .error e := by
  simp only [decode, hheader]

/-- Settles O4: the words of a command are its encoding, so they decode to it; the reserved ones are refused by the
header alone. -/
theorem writtenWordsDecode : Obligations.WrittenWordsDecode := by
  intro c hw hl
  have decodes : ∀ i : Instr, i.wellFormed c.params = true → decode c.params (encode i) = .ok i :=
    decodeOfEncodeIsTheCommand c
  have hkeys : (Instr.seedKeys 1 2).wellFormed c.params = true := by
    simp [Instr.wellFormed, hw, hl, fits_w64]
  have hload : (Instr.loadState [1, 2, 3] 4).wellFormed c.params = true := by
    simp [Instr.wellFormed, hw, hl, fits_w64]
  exact ⟨decodes .step rfl, decodes (.fill 13) rfl, decodes (.seedKeys 1 2) hkeys,
    decodes (.loadState [1, 2, 3] 4) hload, decodes .readStatus rfl,
    decode_of_header_error rfl, decode_of_header_error rfl, decode_of_header_error rfl⟩

end Sys2Proof
end

section
/-! PROOFS. Payload and data beats (30_encoding.md R66 to R68, R73): the value of a run of bytes, the bytes of packed
beats, the beats of unpacked ones, and the operands that a payload stands for. -/

namespace Sys2Proof.Machine

/-! ## The value of consecutive bytes -/

theorem toNat_byteOf (v : BitVec 64) (i : Nat) : (byteOf v i).toNat = v.toNat / 2 ^ (8 * i) % 2 ^ 8 := by
  simp [byteOf, Nat.shiftRight_eq_div_pow]

/-- `n` bytes of `v` from byte `a` on have the value of those bits of `v`. -/
theorem littleEndianValue_bytesFrom (v : BitVec 64) (a n : Nat) :
    littleEndianValue ((List.range n).map fun k => byteOf v (a + k)) = v.toNat / 2 ^ (8 * a) % 2 ^ (8 * n) := by
  induction n generalizing a with
  | zero => simp [littleEndianValue, Nat.mod_one]
  | succ n ih =>
    have hrest : ((List.range n).map fun k => byteOf v (a + (k + 1))) =
        (List.range n).map fun k => byteOf v (a + 1 + k) := by
      simp only [Nat.add_assoc, Nat.add_comm 1]
    rw [List.range_succ_eq_map, List.map_cons, List.map_map]
    simp only [Function.comp_def, littleEndianValue, Nat.succ_eq_add_one, hrest, ih, toNat_byteOf, Nat.add_zero]
    rw [show 8 * (n + 1) = 8 + 8 * n by omega, pow_add, Nat.mod_mul, Nat.div_div_eq_div_mul, ← pow_add]
    rfl

/-- The value of bytes as the sum of 30_encoding.md R68. -/
theorem littleEndianValue_eq_sum (bytes : List Byte) :
    littleEndianValue bytes =
      ((List.range bytes.length).map fun k => (bytes.getD k 0).toNat * 2 ^ (8 * k)).sum := by
  induction bytes with
  | nil => rfl
  | cons b bs ih =>
    have hshift : ∀ k, (bs.getD k 0).toNat * 2 ^ (8 * (k + 1)) = 256 * ((bs.getD k 0).toNat * 2 ^ (8 * k)) := by
      intro k
      rw [Nat.mul_succ, pow_add]
      ring
    rw [List.length_cons, List.range_succ_eq_map, List.map_cons, List.sum_cons, List.map_map]
    simp only [Function.comp_def, Nat.succ_eq_add_one, List.getD_cons_succ, hshift, List.sum_map_mul_left, ← ih]
    simp [littleEndianValue]

/-! ## Packed beats -/

/-- Beat `j` of packed bytes holds bytes `8 j` to `8 j + 7`; past the end both are 0. -/
theorem packBytes_getD (bytes : List Byte) (j : Nat) :
    (packBytes bytes).getD j 0 = BitVec.ofNat 64 (littleEndianValue ((bytes.drop (8 * j)).take 8)) := by
  by_cases hj : j < (bytes.length + 7) / 8
  · simp [packBytes, hj]
  · have hend : bytes.length ≤ 8 * j := by omega
    simp [packBytes, hj, List.drop_eq_nil_of_le hend, littleEndianValue]

/-- The byte positions at or beyond the end of a stream are 0 (30_encoding.md R73). -/
theorem byteOf_packBytes_of_length_le {bytes : List Byte} {i : Nat} (hi : bytes.length ≤ i) :
    byteOf ((packBytes bytes).getD (i / 8) 0) (i % 8) = 0 := by
  have hchunk : ((bytes.drop (8 * (i / 8))).take 8).length ≤ i % 8 := by
    rw [List.length_take, List.length_drop]
    omega
  rw [packBytes_getD, byteOf_littleEndianValue (List.length_take_le _ _)]
  exact List.getD_eq_default _ _ hchunk

/-- Settles O8: the bytes of the stream are `byteOf_packBytes`, the positions above it
`byteOf_packBytes_of_length_le`. -/
theorem streamBytesSitInDataBeats : Obligations.StreamBytesSitInDataBeats := fun bytes =>
  ⟨packBytes_length bytes, fun _ hi => byteOf_packBytes bytes hi, fun _ hi _ => byteOf_packBytes_of_length_le hi⟩

/-! ## Unpacked beats -/

/-- Bytes of one beat, taken from the bytes of all beats: `n` from position `d` on. -/
theorem take_drop_unpackBytes {beats : List Beat} {d n : Nat} (hbeat : d % 8 + n ≤ 8) (hd : d < 8 * beats.length) :
    ((unpackBytes beats).drop d).take n = (List.range n).map fun k => byteOf (beats.getD (d / 8) 0) (d % 8 + k) := by
  have hlength := unpackBytes_length beats
  apply List.ext_getElem
  · rw [List.length_take, List.length_drop, List.length_map, List.length_range]
    omega
  · intro k _ hk
    have hk' : k < n := by simpa using hk
    have hdk : d + k < 8 * beats.length := by omega
    have hbyte := unpackBytes_getD beats hdk
    rw [show (d + k) / 8 = d / 8 by omega, show (d + k) % 8 = d % 8 + k by omega,
      List.getD_eq_getElem _ _ (hlength ▸ hdk)] at hbyte
    rw [List.getElem_take, List.getElem_drop, List.getElem_map, List.getElem_range]
    exact hbyte

/-- Packing the bytes of beats gives the beats back. -/
theorem packBytes_unpackBytes (beats : List Beat) : packBytes (unpackBytes beats) = beats := by
  have hlength : (packBytes (unpackBytes beats)).length = beats.length := by
    rw [packBytes_length, unpackBytes_length]
    omega
  refine List.ext_getElem hlength fun j hj hj' => ?_
  have hbeat := packBytes_getD (unpackBytes beats) j
  rw [take_drop_unpackBytes (by omega) (by omega), littleEndianValue_bytesFrom, Nat.mul_div_cancel_left j (by decide),
    Nat.mul_mod_right, List.getD_eq_getElem _ _ hj, List.getD_eq_getElem _ _ hj'] at hbeat
  rw [hbeat]
  apply BitVec.eq_of_toNat_eq
  simpa using beats[j].isLt

/-! ## The operands of a payload -/

theorem toNat_payloadWord (w : Width) (b : Beat) : (payloadWord w b).toNat = b.toNat % 2 ^ w.bits :=
  toNat_wrap w b.toNat

/-- On W = 64 a payload word is its beat. -/
theorem payloadWord_w64 (b : Beat) : payloadWord .w64 b = b := payloadWord_of_fits (fits_w64 b)

/-- Settles O5: `toNat_payloadWord`, for each operand of the two commands. -/
theorem payloadWordsAreTheLowBits : Obligations.PayloadWordsAreTheLowBits := by
  intro c
  constructor
  · intro b0 b1 hlag
    exact ⟨_, _, decode_headerBeat c.params .seedKeys (fun _ => rfl) (fun _ => hlag) rfl, toNat_payloadWord _ b0,
      toNat_payloadWord _ b1⟩
  · intro bs hlength
    refine ⟨_, _, decode_headerBeat c.params .loadState (fun _ => rfl) (fun h => by cases h) hlength, by simp,
      fun i hi => ?_, toNat_payloadWord _ _⟩
    rw [← toNat_payloadWord]
    simp [hi]

/-- The payload of SEED_BYTES has every seed byte (30_encoding.md R62, R67). -/
theorem seedLen_le_of_seedBeats {cfg : Config} {payload : List Beat} (h : payload.length = cfg.seedBeats) :
    cfg.seedLen ≤ 8 * payload.length := by
  rw [h, Config.seedBeats]
  omega

theorem length_seedBytes {cfg : Config} {payload : List Beat} (h : payload.length = cfg.seedBeats) :
    ((unpackBytes payload).take cfg.seedLen).length = cfg.seedLen := by
  rw [List.length_take, unpackBytes_length]
  exact Nat.min_eq_left (seedLen_le_of_seedBeats h)

/-- Seed byte `i` is byte `i mod 8` of payload beat `i div 8` (30_encoding.md R67). -/
theorem seedBytes_getD {cfg : Config} {payload : List Beat} (h : payload.length = cfg.seedBeats) {i : Nat}
    (hi : i < cfg.seedLen) :
    ((unpackBytes payload).take cfg.seedLen).getD i 0 = byteOf (payload.getD (i / 8) 0) (i % 8) := by
  rw [← unpackBytes_getD payload (lt_of_lt_of_le hi (seedLen_le_of_seedBeats h))]
  simp only [List.getD_eq_getElem?_getD, List.getElem?_take_of_lt hi]

/-- The bytes of seed word `j`, of four. -/
theorem length_seedWordBytes {w : Width} {bytes : List Byte} (hlength : bytes.length = 4 * w.bytes) {j : Nat}
    (hj : j < 4) : ((bytes.drop (j * w.bytes)).take w.bytes).length = w.bytes := by
  have hend : (j + 1) * w.bytes ≤ 4 * w.bytes := Nat.mul_le_mul_right _ hj
  rw [Nat.succ_mul] at hend
  rw [List.length_take, List.length_drop]
  omega

/-- A seed word is the sum of 30_encoding.md R68: W/8 bytes never exceed W bits. -/
theorem toNat_seedWord_eq_sum {w : Width} {bytes : List Byte} (hlength : bytes.length = 4 * w.bytes) {j : Nat}
    (hj : j < 4) :
    (seedWord w bytes j).toNat =
      ((List.range w.bytes).map fun k => (bytes.getD (j * w.bytes + k) 0).toNat * 2 ^ (8 * k)).sum := by
  have hbytes := length_seedWordBytes hlength hj
  have hfits := littleEndianValue_lt ((bytes.drop (j * w.bytes)).take w.bytes)
  rw [hbytes, ← width_bits_eq] at hfits
  rw [seedWord, toNat_wrap, Nat.mod_eq_of_lt hfits, littleEndianValue_eq_sum, hbytes]
  refine congrArg List.sum (List.map_congr_left fun k hk => ?_)
  have hk' : k < w.bytes := List.mem_range.1 hk
  simp only [List.getD_eq_getElem?_getD, List.getElem?_take_of_lt hk', List.getElem?_drop]

/-- A seed word lies in one payload beat, whose bits from its first byte on it is (30_encoding.md R67, R68). -/
theorem toNat_seedWord_of_payload {cfg : Config} {payload : List Beat} (h : payload.length = cfg.seedBeats) {j : Nat}
    (hj : j < 4) :
    (seedWord cfg.width ((unpackBytes payload).take cfg.seedLen) j).toNat =
      (payload.getD (j * cfg.width.bytes / 8) 0).toNat / 2 ^ (8 * (j * cfg.width.bytes % 8))
        % 2 ^ cfg.width.bits := by
  have hend : j * cfg.width.bytes + cfg.width.bytes ≤ cfg.seedLen := by
    rw [← Nat.succ_mul]
    exact Nat.mul_le_mul_right _ hj
  have hbeat : j * cfg.width.bytes % 8 + cfg.width.bytes ≤ 8 := by
    cases cfg.width <;> simp only [Width.bytes] <;> omega
  have hpos := width_bytes_pos cfg.width
  have hpayload := seedLen_le_of_seedBeats h
  rw [seedWord, List.drop_take, List.take_take, Nat.min_eq_left (by omega),
    take_drop_unpackBytes hbeat (by omega), littleEndianValue_bytesFrom, toNat_wrap, ← width_bits_eq, Nat.mod_mod]

/-- Settles O6: `toNat_seedWord_of_payload` gives the words of W = 64 and W = 32. -/
theorem seedBytesAndWordsOfThePayload : Obligations.SeedBytesAndWordsOfThePayload := by
  intro c bs hlag hbeats
  have hlength := length_seedBytes hbeats
  refine ⟨_, decode_headerBeat c.params .seedBytes (fun _ => rfl) (fun _ => hlag) hbeats, hlength,
    fun i hi => seedBytes_getD hbeats hi, fun j hj => ⟨toNat_seedWord_eq_sum hlength hj, fun hw => ?_, fun hw => ?_⟩⟩
  · have hword := toNat_seedWord_of_payload hbeats hj
    apply BitVec.eq_of_toNat_eq
    rw [hword, hw]
    simpa [Width.bytes, Width.bits] using (bs.getD j 0).isLt
  · have hword := toNat_seedWord_of_payload hbeats hj
    have hbeat : j * 4 / 8 = j / 2 := by omega
    have hhalf : 8 * (j * 4 % 8) = 32 * (j % 2) := by omega
    rw [hword, hw]
    simp only [Width.bytes, Width.bits, hbeat, hhalf]

end Sys2Proof.Machine

namespace Sys2Proof

open Machine

/-! ## Encoding what was decoded -/

/-- Operands taken from a payload of the right length are in range: a payload is never checked (30_encoding.md R66,
R67). -/
theorem withOperands_wellFormed {cfg : Config} {opc : Opcode} {len : BitVec 32} {payload : List Beat}
    (hseeds : opc.seeds = true → cfg.lag = 3) (hpayload : payload.length = opc.payloadBeats cfg) :
    (opc.withOperands cfg len payload).wellFormed cfg = true := by
  cases opc with
  | seedKeys => simp [Opcode.withOperands, Instr.wellFormed, hseeds rfl, toNat_payloadWord, Nat.mod_lt]
  | seedBytes =>
    have hlength : payload.length = cfg.seedBeats := hpayload
    simp only [Opcode.withOperands, Instr.wellFormed, hseeds rfl, length_seedBytes hlength, decide_true, Bool.and_self]
  | loadState => simp [Opcode.withOperands, Instr.wellFormed, toNat_payloadWord, Nat.mod_lt]
  | _ => rfl

/-- The LEN field of a decoded command is the header's. -/
theorem withOperands_len {cfg : Config} {opc : Opcode} {len : BitVec 32} {payload : List Beat}
    (hlen : opc.takesLen = false → len = 0) : (opc.withOperands cfg len payload).len = len := by
  cases opc with
  | fill | tryFill => rfl
  | _ => exact (hlen rfl).symm

/-- On W = 64 no bit of a payload is ignored. -/
theorem withOperands_payload_w64 {cfg : Config} {opc : Opcode} {len : BitVec 32} {payload : List Beat}
    (hw : cfg.width = .w64) (hpayload : payload.length = opc.payloadBeats cfg) :
    (opc.withOperands cfg len payload).payload = payload := by
  cases opc with
  | seedKeys =>
    obtain ⟨k1, k2, rfl⟩ := List.length_eq_two.1 hpayload
    simp [Opcode.withOperands, Instr.payload, hw, payloadWord_w64]
  | seedBytes =>
    have hlength : (unpackBytes payload).length = cfg.seedLen := by
      rw [unpackBytes_length, hpayload]
      simp [Opcode.payloadBeats, Config.seedBeats, Config.seedLen, hw, Width.bytes]
    simp only [Opcode.withOperands, Instr.payload, ← hlength, List.take_length, packBytes_unpackBytes]
  | loadState =>
    have hlength : payload.length = cfg.lag + 1 := hpayload
    simp only [Opcode.withOperands, Instr.payload, hw, payloadWord_w64]
    apply List.ext_getElem
    · simp [hlength]
    · intro i _ hi
      by_cases hlane : i < cfg.lag
      · simp [hlane, hi]
      · obtain rfl : i = cfg.lag := by omega
        simp [hi]
  | _ => exact (List.length_eq_zero_iff.1 hpayload).symm

/-- Settles O2: the header of what decodes is `headerBeat` of its opcode and LEN (`decodeHeader_ok`), the operands are
in range, and on W = 64 they have every bit of the payload. -/
theorem encodeOfDecodeIsTheBeats : Obligations.EncodeOfDecodeIsTheBeats := by
  intro c beats i hd
  obtain ⟨h, payload, opc, rfl, hheader, hpayload, rfl⟩ := decode_ok hd
  obtain ⟨hbeat, hlen, hseeds⟩ := decodeHeader_ok hheader
  refine ⟨withOperands_wellFormed hseeds hpayload, fun hw => ?_⟩
  rw [encode, withOperands_opcode, withOperands_len hlen, withOperands_payload_w64 hw hpayload, hbeat]

end Sys2Proof
end

section
/-! PROOFS. The frame of a response (30_encoding.md R70, R71, R74, R75): its status beat as a number, its beats and the
one with `rsp_last`. -/

namespace Sys2Proof.Machine

/-- The fields of a status beat (30_encoding.md R70): STATUS from bit 0, OPCE from bit 8, NDATA from bit 32. -/
theorem statusBeat_eq (code : StatusCode) (opce : BitVec 8) (ndata : Nat) :
    statusBeat code opce ndata = BitVec.ofNat 64 (code.code.toNat + opce.toNat * 2 ^ 8 + ndata * 2 ^ 32) := by
  have hcode := code.code.isLt
  have hopce := opce.isLt
  apply BitVec.eq_of_toNat_eq
  simp only [statusBeat, toNat_cat, BitVec.toNat_ofNat, BitVec.ofNat_eq_ofNat]
  omega

/-- A response is its status beat and then its data beats (30_encoding.md R75). -/
theorem responseBeats_map_data (code : StatusCode) (opce : BitVec 8) (data : List Beat) :
    (responseBeats code opce data).map RspBeat.data = statusBeat code opce data.length :: data :=
  markLast_map_data _

/-- `rsp_last` is 1 on the last beat of a response and 0 on every other (30_encoding.md R74). -/
theorem responseBeats_last (code : StatusCode) (opce : BitVec 8) {data : List Beat} {i : Nat} (hi : i ≤ data.length) :
    (responseBeats code opce data)[i]?.map RspBeat.last = some (decide (i = data.length)) := by
  have h := markLast_last (statusBeat code opce data.length :: data) i (Nat.lt_succ_of_le hi)
  simpa only [responseBeats, List.length_cons, Nat.succ_inj] using h

/-- Settles O7: what is appended to RQ is `responseBeats`. -/
theorem responsesAreFramed : Obligations.ResponsesAreFramed := by
  refine ⟨⟨rfl, rfl, rfl, rfl⟩, fun s code opce data _ => ?_⟩
  refine ⟨responseBeats code opce data, State.respond_rq s code opce data, ?_, fun i hi => responseBeats_last _ _ hi⟩
  rw [responseBeats_map_data, statusBeat_eq]

end Sys2Proof.Machine
end

section
/-! PROOFS. The assembler (30_encoding.md R76, R77): what a line reads as decides its beats, and the text of a command
or of a raw beat reads as what it was written for. -/

namespace Sys2Proof.Machine

/-! ## From what a line reads as to its beats -/

theorem assembleLine_of_unreadable {cfg : Config} {line : String} (h : parseLine cfg line.toList = none) :
    assembleLine cfg line = none := by
  simp only [assembleLine, h]

theorem assembleLine_of_empty {cfg : Config} {line : String} (h : parseLine cfg line.toList = some none) :
    assembleLine cfg line = some [] := by
  simp only [assembleLine, h]

theorem assembleLine_of_asmLine {cfg : Config} {line : String} {l : AsmLine}
    (h : parseLine cfg line.toList = some (some l)) : assembleLine cfg line = emitLine cfg l := by
  simp only [assembleLine, h]

theorem emitLine_command (cfg : Config) (i : Instr) :
    emitLine cfg (.command i) = if i.wellFormed cfg = true then some (encode i) else none := rfl

theorem emitLine_beat (cfg : Config) (v : Nat) :
    emitLine cfg (.beat v) = if v < 2 ^ 64 then some [BitVec.ofNat 64 v] else none := rfl

/-- Settles O58: each outcome of `parseLine` has its own beats, and a well-formed command decodes from its encoding
(`decodeOfEncodeIsTheCommand`). -/
theorem assembledLinesDecode : Obligations.AssembledLinesDecode := by
  intro c line
  cases h : parseLine c.params line.toList with
  | none => exact assembleLine_of_unreadable h
  | some l =>
    cases l with
    | none => exact assembleLine_of_empty h
    | some l =>
      have hbeats := assembleLine_of_asmLine h
      cases l with
      | beat v => exact hbeats
      | command i =>
        rw [emitLine_command] at hbeats
        refine ⟨fun hwf => ⟨hbeats.trans (if_pos hwf), decodeOfEncodeIsTheCommand c i hwf⟩, fun hwf => ?_⟩
        exact hbeats.trans (if_neg (Bool.eq_false_iff.1 hwf))

/-! ## Operands -/

theorem parseWord_numberText (w : Width) (base : NumberBase) (v : Word) :
    parseWord w (numberText base v.toNat) = if w.fits v = true then some v else none := by
  rw [parseWord, parseNumber_numberText]
  by_cases h : v.toNat < 2 ^ w.bits <;> simp [Option.filter, h]

theorem parseLen_numberText (base : NumberBase) (len : BitVec 32) :
    parseLen (numberText base len.toNat) = some len := by
  have h := len.isLt
  rw [parseLen, parseNumber_numberText]
  simp [Option.filter, h]

theorem mapM_parseWord_numberText (w : Width) (base : NumberBase) (words : List Word) :
    (words.map fun v => numberText base v.toNat).mapM (parseWord w) =
      if words.all w.fits = true then some words else none := by
  induction words with
  | nil => rfl
  | cons v vs ih =>
    rw [List.map_cons, List.mapM_cons, ih, parseWord_numberText, List.all_cons]
    cases w.fits v <;> cases vs.all w.fits <;> rfl

theorem parseCommand_loadState_of_none {cfg : Config} {operands : List (List Char)}
    (h : operands.mapM (parseWord cfg.width) = none) : parseCommand cfg .loadState operands = none := by
  simp [parseCommand, h]

theorem parseCommand_loadState_of_some {cfg : Config} {operands : List (List Char)} {values : List Word}
    (h : operands.mapM (parseWord cfg.width) = some values) :
    parseCommand cfg .loadState operands =
      if values.length = cfg.lag + 1 then some (.loadState (values.take cfg.lag) (values.getD cfg.lag 0))
      else none := by
  simp [parseCommand, h]

/-- The lanes and the carry of a LOAD_STATE read as written when they are L + 1 values below `2^W` (30_encoding.md
R76). -/
theorem parseCommand_loadState (cfg : Config) (base : NumberBase) (lanes : List Word) (carry : Word) :
    parseCommand cfg .loadState (operandTexts base (.loadState lanes carry)) =
      if (Instr.loadState lanes carry).wellFormed cfg = true then some (.loadState lanes carry) else none := by
  have hread : (operandTexts base (.loadState lanes carry)).mapM (parseWord cfg.width) = _ :=
    mapM_parseWord_numberText cfg.width base (lanes ++ [carry])
  by_cases hfits : (lanes ++ [carry]).all cfg.width.fits = true
  · rw [parseCommand_loadState_of_some (hread.trans (if_pos hfits))]
    rw [List.all_append, Bool.and_eq_true, List.all_cons, List.all_nil, Bool.and_true] at hfits
    obtain ⟨hlanes, hcarry⟩ := hfits
    by_cases hlength : lanes.length = cfg.lag
    · simp [Instr.wellFormed, hlanes, hcarry, ← hlength]
    · simp [Instr.wellFormed, hlength]
  · rw [parseCommand_loadState_of_none (hread.trans (if_neg hfits)), if_neg]
    intro hwf
    simp only [Instr.wellFormed, Bool.and_eq_true] at hwf
    obtain ⟨⟨-, hlanes⟩, hcarry⟩ := hwf
    exact hfits (by simp only [List.all_append, hlanes, List.all_cons, hcarry, List.all_nil, Bool.and_self])

/-- The operands of a command read as the command or, where one of them is out of range or their number is wrong, as
nothing; those of a well-formed command are never refused. -/
theorem parseCommand_operandTexts (cfg : Config) (base : NumberBase) (i : Instr) :
    parseCommand cfg i.opcode (operandTexts base i) = some i
      ∨ (parseCommand cfg i.opcode (operandTexts base i) = none ∧ i.wellFormed cfg = false) := by
  cases i with
  | fill len => simp [parseCommand, operandTexts, Instr.opcode, parseLen_numberText]
  | tryFill len => simp [parseCommand, operandTexts, Instr.opcode, parseLen_numberText]
  | seedKeys k1 k2 =>
    cases h1 : cfg.width.fits k1 <;> cases h2 : cfg.width.fits k2 <;>
      simp [parseCommand, operandTexts, Instr.opcode, Instr.wellFormed, parseWord_numberText, h1, h2]
  | seedBytes bytes => simp [parseCommand, operandTexts, Instr.opcode, parseHexBytes_byteText]
  | loadState lanes carry =>
    have hread := parseCommand_loadState cfg base lanes carry
    cases hwf : (Instr.loadState lanes carry).wellFormed cfg with
    | false => exact .inr ⟨hread.trans (if_neg (Bool.eq_false_iff.1 hwf)), rfl⟩
    | true => exact .inl (hread.trans (if_pos hwf))
  | _ => exact .inl rfl

/-! ## Lines -/

/-- An operand is the text of a number, or the hexadecimal bytes of a SEED_BYTES (30_encoding.md R76). -/
theorem mem_operandTexts_cases {base : NumberBase} {i : Instr} {op : List Char} (hop : op ∈ operandTexts base i) :
    (∃ n, op = numberText base n) ∨ ∃ bytes, i = .seedBytes bytes ∧ op = bytes.flatMap byteText := by
  cases i <;> simp only [operandTexts, List.mem_cons, List.mem_map, List.not_mem_nil, or_false] at hop
  case fill len | tryFill len => exact .inl ⟨_, hop⟩
  case seedKeys k1 k2 => exact .inl (hop.elim (fun h => ⟨_, h⟩) fun h => ⟨_, h⟩)
  case seedBytes bytes => exact .inr ⟨bytes, rfl, hop⟩
  case loadState lanes carry =>
    obtain ⟨w, -, rfl⟩ := hop
    exact .inl ⟨_, rfl⟩

theorem operandTexts_isPlain (base : NumberBase) (i : Instr) :
    ∀ op ∈ operandTexts base i, op.all isPlain = true := by
  intro op hop
  rcases mem_operandTexts_cases hop with ⟨n, rfl⟩ | ⟨bytes, -, rfl⟩
  · exact isPlain_numberText base n
  · exact isPlain_byteText bytes

/-- Only a SEED_BYTES without bytes has an empty operand text. -/
theorem operandTexts_ne_nil (base : NumberBase) {i : Instr} (hi : i ≠ .seedBytes []) :
    ∀ op ∈ operandTexts base i, op ≠ [] := by
  intro op hop
  rcases mem_operandTexts_cases hop with ⟨n, rfl⟩ | ⟨bytes, rfl, rfl⟩
  · exact numberText_ne_nil base n
  · obtain ⟨b, bs, rfl⟩ := List.exists_cons_of_ne_nil fun h => hi (congrArg Instr.seedBytes h)
    simp [byteText]

theorem opcodeText_ne_nil (opc : Opcode) : opcodeText opc ≠ [] := by cases opc <;> decide

/-- A mnemonic names its opcode and is no directive. -/
theorem parseNamed_opcodeText (cfg : Config) (opc : Opcode) (operands : List (List Char)) :
    parseNamed cfg (opcodeText opc) operands = (parseCommand cfg opc operands).map .command := by
  have hdirective : opcodeText opc ≠ ".beat".toList := by cases opc <;> decide
  unfold parseNamed
  rw [if_neg hdirective, find_opcodeText]

theorem parseNamed_beat (cfg : Config) (base : NumberBase) (v : Nat) :
    parseNamed cfg ".beat".toList [numberText base v] = some (.beat v) := by
  unfold parseNamed
  rw [if_pos rfl]
  exact congrArg (Option.map AsmLine.beat) (parseNumber_numberText base v)

/-- A comment changes nothing of what a line reads as. -/
theorem parseLine_comment (cfg : Config) {text : List Char} (h : ∀ c ∈ text, (c != ';') = true)
    (comment : List Char) : parseLine cfg (text ++ ';' :: comment) = parseLine cfg text := by
  have hbefore : (text ++ ';' :: comment).takeWhile (· != ';') = text.takeWhile (· != ';') := by
    rw [takeWhile_comment h, List.takeWhile_eq_self_iff.2 h]
  unfold parseLine
  rw [hbefore]

/-- SEED_BYTES without an operand is no command. -/
theorem parseLine_seedBytes_nil (cfg : Config) (base : NumberBase) :
    parseLine cfg (commandText base (.seedBytes [])) = none := rfl

theorem commandText_ne_semicolon (base : NumberBase) (i : Instr) :
    ∀ c ∈ commandText base i, (c != ';') = true :=
  lineText_ne_semicolon (isPlain_opcodeText i.opcode) (operandTexts_isPlain base i)

/-- The text of a command reads as the command or, where it is not well-formed, perhaps as nothing. -/
theorem parseLine_commandText (c : LegalConfig) (base : NumberBase) (i : Instr) :
    parseLine c.params (commandText base i) = some (some (.command i))
      ∨ (parseLine c.params (commandText base i) = none ∧ i.wellFormed c.params = false) := by
  by_cases hi : i = .seedBytes []
  · subst hi
    have hseedLen : 0 < c.params.seedLen := Nat.mul_pos (by decide) (width_bytes_pos _)
    exact .inr ⟨parseLine_seedBytes_nil c.params base, by simp [Instr.wellFormed, hseedLen.ne]⟩
  · have hops : ∀ op ∈ operandTexts base i, op.all isPlain = true ∧ op ≠ [] := fun op hop =>
      ⟨operandTexts_isPlain base i op hop, operandTexts_ne_nil base hi op hop⟩
    have hread := parseLine_lineText c.params (opcodeText_ne_nil i.opcode) (isPlain_opcodeText i.opcode) hops
      (List.takeWhile_eq_self_iff.2 (commandText_ne_semicolon base i))
    rw [parseNamed_opcodeText] at hread
    rcases parseCommand_operandTexts c.params base i with h | ⟨h, hwf⟩ <;> rw [h] at hread
    · exact .inl hread
    · exact .inr ⟨hread, hwf⟩

theorem beatText_ne_semicolon (base : NumberBase) (v : Nat) : ∀ c ∈ beatText base v, (c != ';') = true :=
  lineText_ne_semicolon (by decide) (by simpa using isPlain_numberText base v)

theorem parseLine_beatText (cfg : Config) (base : NumberBase) (v : Nat) :
    parseLine cfg (beatText base v) = some (some (.beat v)) := by
  have hops : ∀ op ∈ [numberText base v], op.all isPlain = true ∧ op ≠ [] := by
    simpa using And.intro (isPlain_numberText base v) (numberText_ne_nil base v)
  have hread := parseLine_lineText cfg (by decide) (by decide) hops
    (List.takeWhile_eq_self_iff.2 (beatText_ne_semicolon base v))
  exact hread.trans (congrArg _ (parseNamed_beat cfg base v))

/-- A line that reads as the text of command `i` does has its beats. -/
theorem assembleLine_of_commandText {c : LegalConfig} {base : NumberBase} {i : Instr} {line : List Char}
    (h : parseLine c.params line = parseLine c.params (commandText base i)) :
    assembleLine c.params (String.ofList line) =
      if i.wellFormed c.params = true then some (encode i) else none := by
  rw [← String.toList_ofList (l := line)] at h
  rcases parseLine_commandText c base i with hread | ⟨hread, hwf⟩
  · exact assembleLine_of_asmLine (h.trans hread)
  · rw [assembleLine_of_unreadable (h.trans hread), if_neg (Bool.eq_false_iff.1 hwf)]

/-- A line that reads as the text of a raw beat does is that beat, when it is in range. -/
theorem assembleLine_of_beatText {cfg : Config} {base : NumberBase} {v : Nat} {line : List Char}
    (h : parseLine cfg line = parseLine cfg (beatText base v)) :
    assembleLine cfg (String.ofList line) = if v < 2 ^ 64 then some [BitVec.ofNat 64 v] else none := by
  rw [← String.toList_ofList (l := line)] at h
  exact assembleLine_of_asmLine (h.trans (parseLine_beatText cfg base v))

/-- Settles O57: the texts read as what they were written for, and a comment changes nothing. -/
theorem commandTextsAssemble : Obligations.CommandTextsAssemble := by
  intro c base comment
  exact ⟨fun i => ⟨assembleLine_of_commandText rfl,
      assembleLine_of_commandText (parseLine_comment c.params (commandText_ne_semicolon base i) comment)⟩,
    fun v => ⟨assembleLine_of_beatText rfl,
      assembleLine_of_beatText (parseLine_comment c.params (beatText_ne_semicolon base v) comment)⟩⟩

end Sys2Proof.Machine
end

section
/-! PROOFS. One step in exact arithmetic (40_engine.md R80 to R87): an equation for each lane, the carry and the word
after it, the multiply-accumulate that they add up to, and its two fixed points (R92). -/

namespace Sys2Proof.Machine

/-! ## The lanes, the carry and the word after one step -/

/-- Carry add (R84). -/
theorem stepFn_lane_zero_toNat (cfg : Config) (g : Gen) :
    ((stepFn cfg g).gen.lane 0).toNat =
      (product cfg g % 2 ^ cfg.width.bits + g.carry.toNat) % 2 ^ cfg.width.bits := by
  simp only [stepFn, Gen.lane, List.getD_cons_zero, toNat_wrap, productLow_toNat]

/-- Reducing the product before the carry is added changes nothing modulo `2^W` (R87). -/
theorem stepFn_lane_zero (cfg : Config) (g : Gen) :
    (stepFn cfg g).gen.lane 0 =
      wrap cfg.width (cfg.mult.toNat * (g.lane (cfg.lag - 1)).toNat + g.carry.toNat) := by
  apply BitVec.eq_of_toNat_eq
  rw [stepFn_lane_zero_toNat, toNat_wrap, Nat.mod_add_mod, product, Nat.mul_comm]

/-- Lane rotation (R85). -/
theorem stepFn_lane_succ {cfg : Config} (g : Gen) {i : Nat} (hi : i + 1 < cfg.lag) :
    (stepFn cfg g).gen.lane (i + 1) = g.lane i := by
  simp [stepFn, Gen.lane, List.getD_eq_getElem?_getD, List.getElem?_take_of_lt (Nat.lt_sub_of_add_lt hi)]

/-- Carry update (R86), from the product's high part and what the carry add carries out. -/
theorem stepFn_carry_toNat_of_high {c : LegalConfig} {g : Gen} (h : g.fits c.params = true) :
    (stepFn c.params g).gen.carry.toNat =
      product c.params g / 2 ^ c.params.width.bits
        + (product c.params g % 2 ^ c.params.width.bits + g.carry.toNat) / 2 ^ c.params.width.bits := by
  rw [stepFn_carry_toNat h, div_add_mod_add_div _ _ (Nat.two_pow_pos _), product, Nat.mul_comm]

theorem stepFn_carry_fits {c : LegalConfig} {g : Gen} (h : g.fits c.params = true) :
    (stepFn c.params g).gen.carry.toNat < 2 ^ c.params.width.bits := by
  obtain ⟨-, -, hcarry⟩ := (Gen.fits_iff _ _).1 (stepFn_fits h)
  exact hcarry

/-- Output permutation of the index form (R82), from the lanes before rotation. -/
theorem stepFn_word_toNat {c : LegalConfig} {g : Gen} (h : g.fits c.params = true) {pa pb pc : Nat}
    (hperm : c.params.perm = .indices pa pb pc) :
    (stepFn c.params g).word.toNat =
      (((g.lane pa).toNat ^^^ (g.lane pb).toNat)
        + ((g.lane pc).toNat ^^^ product c.params g / 2 ^ c.params.width.bits)) % 2 ^ c.params.width.bits := by
  simp only [stepFn, permute, hperm, toNat_wrap, BitVec.toNat_xor, productHigh_toNat h]

/-- The product of a W-bit lane and M has a high part below M. -/
theorem product_div_lt_mult {c : LegalConfig} {g : Gen} (h : g.fits c.params = true) :
    product c.params g / 2 ^ c.params.width.bits < c.params.mult.toNat := by
  obtain ⟨-, -, hmult, -⟩ := legal_facts c
  rw [product, Nat.mul_comm]
  exact mulAdd_div_lt (c := 0) (Gen.lane_lt h _) (by omega)

/-- The carry-out bit of the step (R84) is what the carry add carries past `2^W`. -/
theorem stepFn_carryOut_toNat {c : LegalConfig} {g : Gen} (h : g.fits c.params = true) :
    (carryOut c.params.width (productLow c.params g) g.carry).toNat =
      (product c.params g % 2 ^ c.params.width.bits + g.carry.toNat) / 2 ^ c.params.width.bits := by
  obtain ⟨-, -, hcarry⟩ := (Gen.fits_iff _ g).1 h
  have hlow : (productLow c.params g).toNat < 2 ^ c.params.width.bits := by simp [Nat.mod_lt]
  rw [carryOut_toNat hlow hcarry, productLow_toNat]

theorem carryOut_toNat_eq_ite (w : Width) (low c : Word) :
    (carryOut w low c).toNat = if 2 ^ w.bits ≤ low.toNat + c.toNat then 1 else 0 := by
  unfold carryOut
  split <;> simp [*]

/-- Settles O9: an equation for each part of the step. -/
theorem stepFunctionArithmetic : Obligations.StepFunctionArithmetic := by
  intro c g hg cfg t low hi sum r
  have hcarryOut : sum / 2 ^ cfg.width.bits ≤ 1 := (stepFn_carryOut_toNat hg).symm.trans_le (Bool.toNat_le _)
  have hnew : r.gen.carry.toNat = hi + sum / 2 ^ cfg.width.bits := stepFn_carry_toNat_of_high hg
  refine ⟨product_div_lt_mult hg, stepFn_lane_zero_toNat cfg g, fun i hpos hlt => ?_, ?_, hcarryOut,
    fun pa pb pc hperm => stepFn_word_toNat hg hperm, stepFn_fits hg, ?_⟩
  · obtain ⟨j, rfl⟩ := Nat.exists_eq_add_of_le' hpos
    exact stepFn_lane_succ g hlt
  · rw [← hnew, Nat.mod_eq_of_lt (stepFn_carry_fits hg)]
  · exact (fits_iff _ _).1 (permute_fits cfg g _)

/-- Settles O10: W = 32 and W = 64 have the index form `(L-1, L-2, 0)`. -/
theorem outputPairingOfWideInstances : Obligations.OutputPairingOfWideInstances := fun c _ hg hwide =>
  stepFn_word_toNat hg (perm_wide c hwide)

/-- Settles O11: the sum of high part and carry-out is the new carry itself, which fits. -/
theorem carryAddAndUpdate : Obligations.CarryAddAndUpdate := by
  intro c g hg cfg t low hi b
  have hb : (carryOut cfg.width (productLow cfg g) g.carry).toNat = b := by
    rw [carryOut_toNat_eq_ite, productLow_toNat]
    rfl
  have hnew : (stepFn cfg g).gen.carry.toNat = hi + b := by
    rw [← hb, stepFn_carryOut_toNat hg]
    exact stepFn_carry_toNat_of_high hg
  exact ⟨stepFn_lane_zero_toNat cfg g, hnew, hnew ▸ stepFn_carry_fits hg⟩

/-- Settles O12: the low and the high part of the multiply-accumulate, whose bound is `stepFn_carry_lt`. -/
theorem multiplyAccumulateIdentity : Obligations.MultiplyAccumulateIdentity := by
  intro c g hg cfg v
  obtain ⟨-, -, hmult, -⟩ := legal_facts c
  refine ⟨?_, stepFn_carry_toNat hg, fun hc => ?_⟩
  · rw [stepFn_lane_zero, toNat_wrap]
  · have hpos : 0 < c.params.mult.toNat := by omega
    exact Nat.le_sub_one_of_lt (stepFn_carry_lt hg (Nat.lt_of_le_sub_one hpos hc))

/-! ## Only the words depend on the permutation -/

theorem runSteps_gen_with_perm (cfg : Config) (p : Perm) (k : Nat) (g : Gen) :
    (runSteps { cfg with perm := p } k g).1 = (runSteps cfg k g).1 := by
  induction k generalizing g with
  | zero => rfl
  | succ k ih => exact ih (stepFn cfg g).gen

/-- Settles O16: a step's state update does not mention the permutation. -/
theorem permutationTouchesOnlyTheWords : Obligations.PermutationTouchesOnlyTheWords := fun cfg p k g =>
  ⟨runSteps_gen_with_perm cfg p k g, fun _ => toNat_wrap _ _⟩

/-! ## The fixed points -/

/-- A generator state is its lanes, read one by one, and its carry. -/
theorem Gen.eq_of_lanes {g h : Gen} (hlength : g.lanes.length = h.lanes.length)
    (hlane : ∀ i < g.lanes.length, g.lane i = h.lane i) (hcarry : g.carry = h.carry) : g = h := by
  obtain ⟨lanes, carry⟩ := g
  obtain ⟨lanes', carry'⟩ := h
  obtain rfl : lanes = lanes' := by
    apply List.ext_getElem hlength
    intro i hi hi'
    simpa [Gen.lane, hi, hi'] using hlane i hi
  exact congrArg _ hcarry

theorem Gen.lane_replicate {n i : Nat} (x carry : Word) (hi : i < n) : Gen.lane ⟨List.replicate n x, carry⟩ i = x :=
  List.getD_replicate _ hi

theorem Gen.fits_replicate {cfg : Config} {x carry : Word} (hx : x.toNat < 2 ^ cfg.width.bits)
    (hcarry : carry.toNat < 2 ^ cfg.width.bits) : Gen.fits cfg ⟨List.replicate cfg.lag x, carry⟩ = true :=
  (Gen.fits_iff _ _).2 ⟨List.length_replicate, fun _ hy => List.eq_of_mem_replicate hy ▸ hx, hcarry⟩

/-- All lanes equal to `x` and the carry `k` are a fixed point as soon as the multiply-accumulate gives them back. -/
theorem stepFn_replicate_gen {c : LegalConfig} {x k : Word} (hx : x.toNat < 2 ^ c.params.width.bits)
    (hk : k.toNat < 2 ^ c.params.width.bits)
    (hv : c.params.mult.toNat * x.toNat + k.toNat = 2 ^ c.params.width.bits * k.toNat + x.toNat) :
    (stepFn c.params ⟨List.replicate c.params.lag x, k⟩).gen = ⟨List.replicate c.params.lag x, k⟩ := by
  obtain ⟨hlag, -⟩ := legal_facts c
  have hfits := Gen.fits_replicate hx hk
  have hold : Gen.lane ⟨List.replicate c.params.lag x, k⟩ (c.params.lag - 1) = x :=
    Gen.lane_replicate x k (by omega)
  obtain ⟨hlength, -⟩ := (Gen.fits_iff _ _).1 (stepFn_fits hfits)
  refine Gen.eq_of_lanes (hlength.trans List.length_replicate.symm) (fun i hi => ?_) (BitVec.eq_of_toNat_eq ?_)
  · rw [hlength] at hi
    rw [Gen.lane_replicate x k hi]
    cases i with
    | zero =>
      apply BitVec.eq_of_toNat_eq
      rw [stepFn_lane_zero, toNat_wrap, hold, hv, Nat.mul_add_mod, Nat.mod_eq_of_lt hx]
    | succ i => exact (stepFn_lane_succ _ hi).trans (Gen.lane_replicate x k (by omega))
  · rw [stepFn_carry_toNat hfits, hold, hv, Nat.mul_add_div (Nat.two_pow_pos _), Nat.div_eq_of_lt hx, Nat.add_zero]

/-- Equal lanes cancel in the first pair of the output permutation. -/
theorem stepFn_replicate_word_toNat {c : LegalConfig} {x k : Word} (hx : x.toNat < 2 ^ c.params.width.bits)
    (hk : k.toNat < 2 ^ c.params.width.bits) {pa pb pc : Nat} (ha : pa < c.params.lag) (hb : pb < c.params.lag)
    (hc : pc < c.params.lag) (hperm : c.params.perm = .indices pa pb pc) :
    (stepFn c.params ⟨List.replicate c.params.lag x, k⟩).word.toNat =
      (x.toNat ^^^ x.toNat * c.params.mult.toNat / 2 ^ c.params.width.bits) % 2 ^ c.params.width.bits := by
  rw [stepFn_word_toNat (Gen.fits_replicate hx hk) hperm, product, Gen.lane_replicate x k ha,
    Gen.lane_replicate x k hb, Gen.lane_replicate x k hc, Gen.lane_replicate x k (by omega), Nat.xor_self,
    Nat.zero_add]

/-- All ones exclusive-or `m` is the complement of `m`. -/
theorem two_pow_sub_one_xor {n m : Nat} (h : m < 2 ^ n) : (2 ^ n - 1) ^^^ m = 2 ^ n - 1 - m := by
  have hnot := congrArg BitVec.toNat (BitVec.allOnes_xor (x := BitVec.ofNatLT m h))
  rwa [BitVec.toNat_xor, BitVec.toNat_allOnes, BitVec.toNat_not, BitVec.toNat_ofNatLT] at hnot

theorem toNat_ones (w : Width) : (BitVec.ofNat 64 (2 ^ w.bits - 1)).toNat = 2 ^ w.bits - 1 := by
  have hpos := Nat.two_pow_pos w.bits
  have hle := two_pow_width_le w
  rw [BitVec.toNat_ofNat, Nat.mod_eq_of_lt (by omega)]

theorem toNat_mult_sub_one (c : LegalConfig) : (c.params.mult - 1).toNat = c.params.mult.toNat - 1 := by
  obtain ⟨-, -, hmult, -⟩ := legal_facts c
  bv_omega

/-- M times an all-ones lane has the high part M - 1 and the low part `2^W - M`. -/
theorem mult_mul_ones (c : LegalConfig) :
    c.params.mult.toNat * (2 ^ c.params.width.bits - 1)
      = 2 ^ c.params.width.bits * (c.params.mult.toNat - 1)
        + (2 ^ c.params.width.bits - c.params.mult.toNat) := by
  obtain ⟨-, -, hmult, hlt, -⟩ := legal_facts c
  have hle := Nat.le_mul_of_pos_right (2 ^ c.params.width.bits) (by omega : 0 < c.params.mult.toNat)
  rw [Nat.mul_sub_one, Nat.mul_sub_one, Nat.mul_comm c.params.mult.toNat]
  omega

theorem Gen.fits_ones {c : LegalConfig} {x k : Word} (hx : x.toNat = 2 ^ c.params.width.bits - 1)
    (hk : k.toNat = c.params.mult.toNat - 1) : Gen.fits c.params ⟨List.replicate c.params.lag x, k⟩ = true := by
  obtain ⟨-, -, hmult, hlt, -⟩ := legal_facts c
  exact Gen.fits_replicate (by omega) (by omega)

/-- All ones with carry M - 1: `M * (2^W - 1) + (M - 1) = 2^W * (M - 1) + (2^W - 1)`. -/
theorem stepFn_ones_gen {c : LegalConfig} {x k : Word} (hx : x.toNat = 2 ^ c.params.width.bits - 1)
    (hk : k.toNat = c.params.mult.toNat - 1) :
    (stepFn c.params ⟨List.replicate c.params.lag x, k⟩).gen = ⟨List.replicate c.params.lag x, k⟩ := by
  obtain ⟨-, -, hmult, hlt, -⟩ := legal_facts c
  refine stepFn_replicate_gen (by omega) (by omega) ?_
  rw [hx, hk, mult_mul_ones]
  omega

/-- The word of the all-ones state is the complement of the high part M - 1. -/
theorem stepFn_ones_word_toNat {c : LegalConfig} {x k : Word} (hx : x.toNat = 2 ^ c.params.width.bits - 1)
    (hk : k.toNat = c.params.mult.toNat - 1) {pa pb pc : Nat} (ha : pa < c.params.lag) (hb : pb < c.params.lag)
    (hc : pc < c.params.lag) (hperm : c.params.perm = .indices pa pb pc) :
    (stepFn c.params ⟨List.replicate c.params.lag x, k⟩).word.toNat
      = 2 ^ c.params.width.bits - c.params.mult.toNat := by
  obtain ⟨-, -, hmult, hlt, -⟩ := legal_facts c
  have hhigh : (2 ^ c.params.width.bits - 1) * c.params.mult.toNat / 2 ^ c.params.width.bits
      = c.params.mult.toNat - 1 := by
    rw [Nat.mul_comm, mult_mul_ones, Nat.mul_add_div (Nat.two_pow_pos _), Nat.div_eq_of_lt (by omega), Nat.add_zero]
  rw [stepFn_replicate_word_toNat (by omega) (by omega) ha hb hc hperm, hx, hhigh, two_pow_sub_one_xor (by omega),
    Nat.mod_eq_of_lt (by omega)]
  omega

/-- LOAD_STATE with the lanes and the carry of a fitting state writes that state, whatever stood there
(43_state_io.md R115). -/
theorem exec_loadState_gen {s : State} {g : Gen} (h : g.fits s.cfg = true) :
    ∃ t, exec (.loadState g.lanes g.carry) s = .next t ∧ t.gen = some g :=
  ⟨_, rfl, congrArg some (loadGen_of_fits h)⟩

/-- Settles O14: both states are equal lanes with a carry that the multiply-accumulate gives back. -/
theorem fixedPointsOfTheStep : Obligations.FixedPointsOfTheStep := by
  rintro _ s rfl cfg ones zeroGen onesGen
  have hzero : (0 : Word).toNat < 2 ^ s.cfg.width.bits := Nat.two_pow_pos _
  have hones : ones.toNat = 2 ^ s.cfg.width.bits - 1 := toNat_ones _
  have hcarry : (s.cfg.mult - 1).toNat = s.cfg.mult.toNat - 1 := toNat_mult_sub_one s.config
  refine ⟨stepFn_replicate_gen hzero hzero (by simp), stepFn_ones_gen hones hcarry,
    fun pa pb pc ha hb hc hperm => ⟨BitVec.eq_of_toNat_eq ?_, stepFn_ones_word_toNat hones hcarry ha hb hc hperm⟩,
    fun g hg => exec_loadState_gen ?_⟩
  · rw [stepFn_replicate_word_toNat hzero hzero ha hb hc hperm]
    simp
  · rcases List.mem_pair.1 hg with rfl | rfl
    · exact Gen.fits_replicate hzero hzero
    · exact Gen.fits_ones hones hcarry

end Sys2Proof.Machine
end

section
/-! PROOFS. The lag-sequence form (40_engine.md R88): one step takes the lanes and the carry that the sequence gives
after `k` terms to those after `k + 1`. -/

namespace Sys2Proof.Machine

theorem lagSequence_terms_length {cfg : Config} {g : Gen} (hlength : g.lanes.length = cfg.lag) (k : Nat) :
    (lagSequence cfg g k).terms.length = k + cfg.lag := by
  induction k with
  | zero => simp [lagSequence, hlength]
  | succ k ih => simp only [lagSequence, List.length_append, List.length_singleton, ih]; omega

@[simp] theorem lagGen_lanes_length (cfg : Config) (g : Gen) (k : Nat) : (lagGen cfg g k).lanes.length = cfg.lag := by
  simp [lagGen]

/-- `x[i] = S[k+L-1-i]`. -/
theorem lagGen_lane (cfg : Config) (g : Gen) (k : Nat) {i : Nat} (hi : i < cfg.lag) :
    (lagGen cfg g k).lane i = (lagSequence cfg g k).terms.getD (k + cfg.lag - 1 - i) 0 := by
  simp [lagGen, Gen.lane, hi]

/-- The oldest lane is `S[k]`. -/
theorem lagGen_oldest {cfg : Config} (hlag : 2 ≤ cfg.lag) (g : Gen) (k : Nat) :
    (lagGen cfg g k).lane (cfg.lag - 1) = (lagSequence cfg g k).terms.getD k 0 := by
  rw [lagGen_lane cfg g k (by omega), show k + cfg.lag - 1 - (cfg.lag - 1) = k by omega]

/-- The sequence begins with the lanes, oldest first. -/
theorem lagGen_zero {cfg : Config} {g : Gen} (hlength : g.lanes.length = cfg.lag) : lagGen cfg g 0 = g := by
  refine Gen.eq_of_lanes (by simp [hlength]) (fun i hi => ?_) rfl
  rw [lagGen_lanes_length] at hi
  have hback : g.lanes.length - 1 - (0 + cfg.lag - 1 - i) = i := by omega
  rw [lagGen_lane cfg g 0 hi, lagSequence, List.getD_eq_getElem?_getD, List.getElem?_reverse (by omega), hback,
    ← List.getD_eq_getElem?_getD, Gen.lane]

/-- One step appends one term: it is the new lane, and the older lanes are the terms before it. -/
theorem stepFn_lagGen_gen {c : LegalConfig} {g : Gen} (hlength : g.lanes.length = c.params.lag) {k : Nat}
    (hfits : (lagGen c.params g k).fits c.params = true) :
    (stepFn c.params (lagGen c.params g k)).gen = lagGen c.params g (k + 1) := by
  obtain ⟨hlag, -⟩ := legal_facts c
  have hterms := lagSequence_terms_length hlength k
  have hold := lagGen_oldest hlag g k
  obtain ⟨hsteplength, -⟩ := (Gen.fits_iff _ _).1 (stepFn_fits hfits)
  refine Gen.eq_of_lanes (by simp [hsteplength]) (fun i hi => ?_) (BitVec.eq_of_toNat_eq ?_)
  · rw [hsteplength] at hi
    rw [lagGen_lane c.params g (k + 1) hi, lagSequence]
    cases i with
    | zero =>
      rw [stepFn_lane_zero, hold, List.getD_append_right _ _ _ _ (by omega),
        show k + 1 + c.params.lag - 1 - 0 - (lagSequence c.params g k).terms.length = 0 by omega]
      rfl
    | succ i =>
      rw [stepFn_lane_succ _ hi, lagGen_lane c.params g k (by omega), List.getD_append _ _ _ _ (by omega),
        show k + 1 + c.params.lag - 1 - (i + 1) = k + c.params.lag - 1 - i by omega]
  · rw [← Nat.mod_eq_of_lt (stepFn_carry_fits hfits), stepFn_carry_toNat hfits, hold]
    exact (toNat_wrap _ _).symm

/-- The word of that step is `r_k`: the pair `(L-1, L-2)` and lane 0 are `S[k]`, `S[k+1]` and `S[k+L-1]`. -/
theorem stepFn_lagGen_word {c : LegalConfig} (g : Gen) (k : Nat)
    (hperm : c.params.perm = .indices (c.params.lag - 1) (c.params.lag - 2) 0) :
    (stepFn c.params (lagGen c.params g k)).word = lagOutput c.params g k := by
  obtain ⟨hlag, -⟩ := legal_facts c
  have hsecond : (lagGen c.params g k).lane (c.params.lag - 2) = (lagSequence c.params g k).terms.getD (k + 1) 0 := by
    rw [lagGen_lane c.params g k (by omega), show k + c.params.lag - 1 - (c.params.lag - 2) = k + 1 by omega]
  have hhigh : productHigh c.params (lagGen c.params g k) = wrap c.params.width
      (c.params.mult.toNat * ((lagSequence c.params g k).terms.getD k 0).toNat / 2 ^ c.params.width.bits) := by
    rw [productHigh, product, lagGen_oldest hlag, Nat.mul_comm]
  simp only [stepFn, permute, hperm, hhigh, hsecond, lagGen_oldest hlag, lagGen_lane c.params g k (i := 0) (by omega),
    Nat.sub_zero, lagOutput]

theorem runSteps_succ_eq (cfg : Config) (k : Nat) (g : Gen) :
    runSteps cfg (k + 1) g =
      ((stepFn cfg (runSteps cfg k g).1).gen, (runSteps cfg k g).2 ++ [(stepFn cfg (runSteps cfg k g).1).word]) :=
  runSteps_add cfg k 1 g

theorem runSteps_gen_eq_lagGen {c : LegalConfig} {g : Gen} (hg : g.fits c.params = true) (k : Nat) :
    (runSteps c.params k g).1 = lagGen c.params g k := by
  obtain ⟨hlength, -⟩ := (Gen.fits_iff _ g).1 hg
  induction k with
  | zero => exact (lagGen_zero hlength).symm
  | succ k ih =>
    rw [runSteps_succ_eq, ih]
    exact stepFn_lagGen_gen hlength (ih ▸ runSteps_fits k hg)

theorem runSteps_words_eq_lagOutput {c : LegalConfig} {g : Gen} (hg : g.fits c.params = true)
    (hperm : c.params.perm = .indices (c.params.lag - 1) (c.params.lag - 2) 0) (k : Nat) :
    (runSteps c.params k g).2 = (List.range k).map (lagOutput c.params g) := by
  induction k with
  | zero => rfl
  | succ k ih =>
    rw [runSteps_succ_eq, ih, runSteps_gen_eq_lagGen hg, stepFn_lagGen_word g k hperm, List.range_succ,
      List.map_append, List.map_singleton]

/-- Settles O15: states and words, each by induction on the number of steps, with the newest step last. -/
theorem stepsAreTheLagSequence : Obligations.StepsAreTheLagSequence := fun _ _ k hg =>
  ⟨runSteps_gen_eq_lagGen hg k, fun hperm => runSteps_words_eq_lagOutput hg hperm k⟩

end Sys2Proof.Machine
end

section
/-! PROOFS. The commands STEP and BATCH (40_engine.md R90, R91): the whole state that each leaves, seeded and unseeded,
and the one BATCH against its steps one by one (R89). -/

namespace Sys2Proof.Machine

/-- STEP on a seeded engine. -/
theorem exec_step_of_seeded {s : State} {g : Gen} (hseeded : s.seeded = true) (hgen : s.gen = some g) :
    exec .step s = .next { s with
      gen := some (stepFn s.cfg g).gen
      rq := s.rq ++ responseBeats .ok 0x01 [(stepFn s.cfg g).word] } :=
  congrArg _ (whenSeeded_of_live (liveGen_of_seeded hseeded hgen))

theorem exec_step_of_unseeded {s : State} (hseeded : s.seeded = false) :
    exec .step s = .next { s with rq := s.rq ++ responseBeats .errUnseeded 0x01 [] } :=
  congrArg _ (whenSeeded_of_unseeded (liveGen_of_unseeded hseeded))

/-- BATCH on a seeded engine. -/
theorem exec_batch_of_seeded {s : State} {g : Gen} (hseeded : s.seeded = true) (hgen : s.gen = some g) :
    exec .batch s = .next { s with
      gen := some (runSteps s.cfg s.cfg.batchN g).1
      rq := s.rq ++ responseBeats .ok 0x02 (runSteps s.cfg s.cfg.batchN g).2 } :=
  congrArg _ (whenSeeded_of_live (liveGen_of_seeded hseeded hgen))

theorem exec_batch_of_unseeded {s : State} (hseeded : s.seeded = false) :
    exec .batch s = .next { s with rq := s.rq ++ responseBeats .errUnseeded 0x02 [] } :=
  congrArg _ (whenSeeded_of_unseeded (liveGen_of_unseeded hseeded))

/-- With an oldest lane of 0 the multiply-accumulate is the carry alone (R90). -/
theorem stepFn_of_oldest_zero {c : LegalConfig} {g : Gen} (hg : g.fits c.params = true)
    (hzero : g.lane (c.params.lag - 1) = 0) :
    (stepFn c.params g).gen.lane 0 = g.carry ∧ (stepFn c.params g).gen.carry = 0 := by
  obtain ⟨-, -, hcarry⟩ := (Gen.fits_iff _ g).1 hg
  have hv : c.params.mult.toNat * (g.lane (c.params.lag - 1)).toNat + g.carry.toNat = g.carry.toNat := by
    simp [hzero]
  refine ⟨?_, stepFn_carry_eq_zero hg (hv.trans_lt hcarry)⟩
  rw [stepFn_lane_zero, hv]
  exact wrap_toNat_of_fits ((fits_iff _ _).2 hcarry)

/-- Settles O17: the two answers behind the SEEDED check, and the step on an oldest lane of 0. -/
theorem stepAnswersOneWord : Obligations.StepAnswersOneWord := fun _ =>
  ⟨fun _ hseeded hgen => exec_step_of_seeded hseeded hgen, fun _ hg hzero => stepFn_of_oldest_zero hg hzero,
    exec_step_of_unseeded⟩

/-- Settles O18: the two answers behind the SEEDED check; BATCH_N is 4 or 6 by the configuration's constraints. -/
theorem batchAnswersItsWords : Obligations.BatchAnswersItsWords := by
  intro s
  obtain ⟨-, -, -, -, -, -, -, -, -, -, -, -, -, -, -, hbatch⟩ := legal_facts s.config
  exact ⟨hbatch, fun g hseeded hgen => ⟨exec_batch_of_seeded hseeded hgen, runSteps_length _ _ g⟩,
    exec_batch_of_unseeded⟩

/-- `k` STEP commands: the state of `k` steps, and one response for each word. -/
theorem execAll_replicate_step (k : Nat) {s : State} {g : Gen} (hseeded : s.seeded = true) (hgen : s.gen = some g) :
    execAll (List.replicate k .step) s = .next { s with
      gen := some (runSteps s.cfg k g).1
      rq := s.rq ++ (runSteps s.cfg k g).2.flatMap fun w => responseBeats .ok 0x01 [w] } := by
  induction k generalizing s g with
  | zero => simp [execAll, runSteps, ← hgen]
  | succ k ih =>
    calc execAll (List.replicate (k + 1) .step) s
        = execAll (List.replicate k .step) _ := execAll_cons_of_next (exec_step_of_seeded hseeded hgen)
      _ = _ := ih hseeded rfl
      _ = _ := by simp only [runSteps, List.flatMap_cons, List.append_assoc]

/-- Settles O19: both run the same steps from the same lanes, and differ in RQ only. -/
theorem batchEqualsRepeatedSteps : Obligations.BatchEqualsRepeatedSteps := fun s g hseeded hgen =>
  ⟨(runSteps s.cfg s.cfg.batchN g).2, { s with gen := some (runSteps s.cfg s.cfg.batchN g).1 },
    runSteps_length _ _ g, execAll_replicate_step _ hseeded hgen, exec_batch_of_seeded hseeded hgen⟩

end Sys2Proof.Machine
end

section
/-! PROOFS. Seeding (41_seeding.md R94 to R103): what the two loads put in the oldest lane and the carry, the sequencer
as steps of the machine, and the whole state that each seed command leaves. -/

namespace Sys2Proof.Machine

/-! ## The loads -/

theorem loadKeys_of_fits {cfg : Config} {k1 k2 : Word} (h1 : cfg.width.fits k1 = true)
    (h2 : cfg.width.fits k2 = true) :
    loadKeys cfg k1 k2 = ⟨[k1, k2, cfg.defaultLane], cfg.defaultCarry⟩ := by
  rw [loadKeys, payloadWord_of_fits h1, payloadWord_of_fits h2]

theorem toNat_seedOldest (cfg : Config) (w3 : Word) :
    (seedOldest cfg w3).toNat = (w3.toNat * 2 ^ cfg.oldShift % 2 ^ cfg.width.bits) ||| 1 := by
  rw [seedOldest, BitVec.toNat_or, toNat_wrap]
  rfl

/-- OLD_SHIFT is at least 2, so the shift clears bits 0 and 1, and bit 0 alone is then forced (41_seeding.md R101). -/
theorem seedOldest_mod_four (c : LegalConfig) (w3 : Word) : (seedOldest c.params w3).toNat % 4 = 1 := by
  obtain ⟨-, -, -, -, -, -, -, -, hshift, hwidth, -⟩ := legal_facts c
  have hcleared : w3.toNat * 2 ^ c.params.oldShift % 2 ^ c.params.width.bits % 2 ^ 2 = 0 := by
    rw [Nat.mod_mod_of_dvd _ (pow_dvd_pow 2 (by omega))]
    exact Nat.mod_eq_zero_of_dvd (Dvd.dvd.mul_left (pow_dvd_pow 2 hshift) _)
  rw [toNat_seedOldest, show 4 = 2 ^ 2 from rfl, Nat.or_mod_two_pow, hcleared]
  rfl

/-- Bit 0 is 1 and bit 1 is 0, where 0 and all-ones have two equal bits. -/
theorem seedOldest_not_degenerate (c : LegalConfig) (w3 : Word) :
    seedOldest c.params w3 ≠ 0 ∧ (seedOldest c.params w3).toNat ≠ 2 ^ c.params.width.bits - 1 := by
  obtain ⟨-, -, -, -, -, -, -, -, hshift, hwidth, -⟩ := legal_facts c
  have hmod := seedOldest_mod_four c w3
  have hdvd : 2 ^ 2 ∣ 2 ^ c.params.width.bits := pow_dvd_pow 2 (by omega)
  have hpos := Nat.two_pow_pos c.params.width.bits
  constructor
  · intro hzero
    simp [hzero] at hmod
  · omega

theorem defaultLane_not_degenerate (c : LegalConfig) :
    c.params.defaultLane ≠ 0 ∧ c.params.defaultLane.toNat ≠ 2 ^ c.params.width.bits - 1 := by
  obtain ⟨-, -, -, -, -, -, -, -, -, -, -, hzero, hones, -⟩ := legal_facts c
  exact ⟨fun h => hzero (by rw [h]; rfl), by omega⟩

/-- Settles O27: the oldest lane is DEFAULT_LANE or the shifted seed word with its low bit forced, and the carry is in
the range that its configuration allows. -/
theorem seedLoadsAreNotDegenerate : Obligations.SeedLoadsAreNotDegenerate := by
  rintro c g - (⟨k1, k2, rfl⟩ | ⟨bytes, rfl⟩)
  · obtain ⟨hzero, hones⟩ := defaultLane_not_degenerate c
    obtain ⟨hlow, hhigh⟩ := loadKeys_carry_range c k1 k2
    exact ⟨hzero, hones, hlow, Nat.le_sub_of_add_le hhigh⟩
  · obtain ⟨hzero, hones⟩ := seedOldest_not_degenerate c (seedWord c.params.width bytes 3)
    obtain ⟨hlow, hhigh⟩ := loadSeed_carry_range c bytes
    exact ⟨hzero, hones, hlow, Nat.le_sub_of_add_le hhigh⟩

/-! ## The sequencer as steps of the machine -/

theorem seqTick_seq_of_more {s : State} {k : Nat} {opc : Opcode} (hseq : s.seq = .prime k opc) (hk : 1 < k) :
    (seqTick s).seq = .prime (k - 1) opc := by
  simp [seqTick, hseq, Nat.not_le.2 hk]

/-- While the host makes no move, the steps of the machine from PRIME(k) are the sequencer's transitions, up to the
last one (41_seeding.md R103). -/
theorem run_eq_seqRun {n k : Nat} {s : State} {opc : Opcode} (hseq : s.seq = .prime k opc) (hn : n ≤ k)
    (hscript : s.script = []) : Host.Core.run Sys2Proof.core n s = .next (seqRun n s) := by
  induction n generalizing s k with
  | zero => rfl
  | succ n ih =>
    rw [run_succ_of_next (step_of_no_move hscript (by simp [hseq])), seqRun]
    cases n with
    | zero => rfl
    | succ m =>
      obtain ⟨hkept, -⟩ := seqTick_onlyProduces s
      exact ih (seqTick_seq_of_more hseq (by omega)) (by omega) (hkept.trans hscript)

/-- Settles O42: the steps are the sequencer's transitions, and `seqRun_prime` says what these leave. -/
theorem sequencerPrimesThenAnswers : Obligations.SequencerPrimesThenAnswers := by
  intro s k opc g hseq hk hgen hscript
  obtain ⟨j, rfl⟩ : ∃ j, k = j + 1 := ⟨k - 1, by omega⟩
  rw [run_eq_seqRun hseq le_rfl hscript, seqRun_prime j s opc g hseq hgen]
  rfl

/-! ## The seed commands -/

/-- Settles O25: keys that fit are loaded as they are, and the sequencer runs its whole table. -/
theorem seedKeysLoadsAndPrimes : Obligations.SeedKeysLoadsAndPrimes := by
  intro s k1 k2 hlag h1 h2
  rw [← loadKeys_of_fits h1 h2]
  exact congrArg Host.Outcome.next (seedWith_of_lag hlag)

/-- Settles O26: the oldest lane and the carry are those of the load. -/
theorem seedBytesLoadsAndPrimes : Obligations.SeedBytesLoadsAndPrimes := fun s bytes hlag _ =>
  ⟨seedOldest s.cfg (seedWord s.cfg.width bytes 3), seedCarry s.cfg (seedWord s.cfg.width bytes 0),
    toNat_seedOldest _ _, rfl, congrArg Host.Outcome.next (seedWith_of_lag hlag)⟩

end Sys2Proof.Machine
end

section
/-! PROOFS. The word accessors NEXT_U32 and NEXT_U64 (42_serializer.md R110 to R112): words concatenated are a number
with one digit per word, and every composition is the low bits of such a number. -/

namespace Sys2Proof.Machine

/-! ## The words of a run -/

theorem stepFn_word_lt (cfg : Config) (g : Gen) : (stepFn cfg g).word.toNat < 2 ^ cfg.width.bits :=
  (fits_iff _ _).1 (permute_fits cfg g _)

/-- Word `j` of a run is the word of the step from the state after `j` steps, however long the run goes on. -/
theorem runSteps_getD {cfg : Config} {j k : Nat} (hj : j < k) (g : Gen) :
    (runSteps cfg k g).2.getD j 0 = (stepFn cfg (runSteps cfg j g).1).word := by
  induction k generalizing j g with
  | zero => exact absurd hj (Nat.not_lt_zero j)
  | succ k ih =>
    cases j with
    | zero => rfl
    | succ j => exact ih (Nat.lt_of_succ_lt_succ hj) (stepFn cfg g).gen

theorem runSteps_words_lt (cfg : Config) (k : Nat) (g : Gen) :
    ∀ r ∈ (runSteps cfg k g).2, r.toNat < 2 ^ cfg.width.bits := by
  induction k generalizing g with
  | zero => exact fun r hr => absurd hr List.not_mem_nil
  | succ k ih => exact List.forall_mem_cons.2 ⟨stepFn_word_lt cfg g, ih (stepFn cfg g).gen⟩

/-! ## Words as digits -/

/-- The number whose base-`2^W` digits are the words, the first one most significant (42_serializer.md R110). -/
def concatValue (w : Width) (words : List Word) : Nat :=
  words.foldl (fun v r => v * 2 ^ w.bits + r.toNat) 0

theorem concatValue_concat (w : Width) (words : List Word) (r : Word) :
    concatValue w (words ++ [r]) = concatValue w words * 2 ^ w.bits + r.toNat := by
  rw [concatValue, List.foldl_append]
  rfl

/-- `n` words of W bits make a number of `n * W` bits. -/
theorem concatValue_lt {w : Width} {words : List Word} (h : ∀ r ∈ words, r.toNat < 2 ^ w.bits) :
    concatValue w words < 2 ^ (words.length * w.bits) := by
  induction words using List.reverseRecOn with
  | nil => exact Nat.two_pow_pos _
  | append_singleton words r ih =>
    obtain ⟨hwords, hr⟩ := List.forall_mem_append.1 h
    have hlow : r.toNat < 2 ^ w.bits := hr r (List.mem_singleton_self r)
    calc concatValue w (words ++ [r])
        = concatValue w words * 2 ^ w.bits + r.toNat := concatValue_concat w words r
      _ < concatValue w words * 2 ^ w.bits + 2 ^ w.bits := Nat.add_lt_add_left hlow _
      _ = (concatValue w words + 1) * 2 ^ w.bits := (Nat.succ_mul _ _).symm
      _ ≤ 2 ^ (words.length * w.bits) * 2 ^ w.bits := Nat.mul_le_mul_right _ (ih hwords)
      _ = 2 ^ ((words ++ [r]).length * w.bits) := by
        rw [← pow_add, List.length_append, List.length_singleton, Nat.succ_mul]

/-- Shifting a beat and filling the free low bits with a word is multiplying and adding. -/
theorem shiftLeft_or_eq {n : Nat} {r : Word} (hr : r.toNat < 2 ^ n) (v : Nat) :
    (BitVec.ofNat 64 v <<< n) ||| r = BitVec.ofNat 64 (v * 2 ^ n + r.toNat) := by
  apply BitVec.eq_of_toNat_eq
  have hshift : (BitVec.ofNat 64 v <<< n).toNat = (v <<< n) % 2 ^ 64 := by
    rw [BitVec.toNat_shiftLeft, BitVec.toNat_ofNat, Nat.shiftLeft_eq, Nat.shiftLeft_eq, Nat.mod_mul_mod]
  calc ((BitVec.ofNat 64 v <<< n) ||| r).toNat
      = (v <<< n) % 2 ^ 64 ||| r.toNat % 2 ^ 64 := by rw [BitVec.toNat_or, hshift, Nat.mod_eq_of_lt r.isLt]
    _ = (v <<< n ||| r.toNat) % 2 ^ 64 := Nat.or_mod_two_pow.symm
    _ = (v * 2 ^ n + r.toNat) % 2 ^ 64 := by rw [← Nat.shiftLeft_add_eq_or_of_lt hr, Nat.shiftLeft_eq]
    _ = (BitVec.ofNat 64 (v * 2 ^ n + r.toNat)).toNat := (BitVec.toNat_ofNat _ _).symm

theorem concatWords_eq {w : Width} {words : List Word} (h : ∀ r ∈ words, r.toNat < 2 ^ w.bits) :
    concatWords w words = BitVec.ofNat 64 (concatValue w words) := by
  induction words using List.reverseRecOn with
  | nil => rfl
  | append_singleton words r ih =>
    obtain ⟨hwords, hr⟩ := List.forall_mem_append.1 h
    rw [concatValue_concat, ← shiftLeft_or_eq (hr r (List.mem_singleton_self r)), ← ih hwords, concatWords,
      List.foldl_append]
    rfl

/-! ## Composition -/

/-- `Compose(R)` in exact arithmetic: where one word has R bits it is cut to them, and where several are needed they
have no more than R (42_serializer.md R110). -/
theorem compose_eq (cfg : Config) (r : Nat) (g : Gen) :
    compose cfg r g =
      ((runSteps cfg (max 1 (r / cfg.width.bits)) g).1,
        BitVec.ofNat 64 (concatValue cfg.width (runSteps cfg (max 1 (r / cfg.width.bits)) g).2 % 2 ^ r)) := by
  unfold compose
  split
  case isTrue hone =>
    have hsteps : max 1 (r / cfg.width.bits) = 1 := Nat.max_eq_left (Nat.div_le_of_le_mul (by omega))
    have hvalue : concatValue cfg.width (runSteps cfg 1 g).2 = (stepFn cfg g).word.toNat := by
      simp [concatValue, runSteps]
    rw [hsteps, hvalue]
    rfl
  case isFalse hmany =>
    have hpos : 0 < cfg.width.bits := by
      rw [width_bits_eq]
      exact Nat.mul_pos (by decide) (width_bytes_pos _)
    have hsteps : max 1 (r / cfg.width.bits) = r / cfg.width.bits :=
      Nat.max_eq_right (Nat.div_pos (Nat.le_of_not_le hmany) hpos)
    have hwords := runSteps_words_lt cfg (r / cfg.width.bits) g
    have hlt := concatValue_lt hwords
    rw [runSteps_length] at hlt
    have hfits := hlt.trans_le (Nat.pow_le_pow_right (by decide) (Nat.div_mul_le_self r cfg.width.bits))
    rw [hsteps, Nat.mod_eq_of_lt hfits, ← concatWords_eq hwords]

/-- NEXT_U32 on a seeded engine. -/
theorem exec_nextU32_of_seeded {s : State} {g : Gen} (hseeded : s.seeded = true) (hgen : s.gen = some g) :
    exec .nextU32 s = .next { s with
      gen := some (compose s.cfg 32 g).1
      rq := s.rq ++ responseBeats .ok 0x03 [(compose s.cfg 32 g).2] } :=
  congrArg _ (whenSeeded_of_live (liveGen_of_seeded hseeded hgen))

/-- NEXT_U64 on a seeded engine. -/
theorem exec_nextU64_of_seeded {s : State} {g : Gen} (hseeded : s.seeded = true) (hgen : s.gen = some g) :
    exec .nextU64 s = .next { s with
      gen := some (compose s.cfg 64 g).1
      rq := s.rq ++ responseBeats .ok 0x04 [(compose s.cfg 64 g).2] } :=
  congrArg _ (whenSeeded_of_live (liveGen_of_seeded hseeded hgen))

/-- Settles O20: `compose_eq` with R = 32. -/
theorem nextU32ComposesWords : Obligations.NextU32ComposesWords := by
  intro s
  constructor
  · intro g hseeded hgen run
    rw [exec_nextU32_of_seeded hseeded hgen, compose_eq]
    rfl
  · exact fun hseeded => congrArg _ (whenSeeded_of_unseeded (liveGen_of_unseeded hseeded))

/-- Settles O21: `compose_eq` with R = 64, where a beat is cut to its 64 bits anyway. -/
theorem nextU64ComposesWords : Obligations.NextU64ComposesWords := by
  intro s
  constructor
  · intro g hseeded hgen run
    have hcut : ∀ v, BitVec.ofNat 64 (v % 2 ^ 64) = BitVec.ofNat 64 v := fun v =>
      BitVec.eq_of_toNat_eq (by simp)
    rw [exec_nextU64_of_seeded hseeded hgen, compose_eq, hcut]
    rfl
  · exact fun hseeded => congrArg _ (whenSeeded_of_unseeded (liveGen_of_unseeded hseeded))

end Sys2Proof.Machine
end

section
/-! PROOFS. FILL and TRY_FILL (42_serializer.md R105 to R109, R113, R114): the data beats against the words of the run,
byte by byte and word by word, two fills against one, and a fill against STEP commands. -/

namespace Sys2Proof.Machine

/-! ## The byte stream -/

theorem streamBytes_append (w : Width) (ws vs : List Word) :
    streamBytes w (ws ++ vs) = streamBytes w ws ++ streamBytes w vs :=
  List.flatMap_append

@[simp] theorem wordBytes_length (w : Width) (v : Word) : (wordBytes w v).length = w.bytes := by
  simp [wordBytes, littleEndianBytes]

/-- The W/8 bytes of a W-bit word have its value. -/
theorem littleEndianValue_wordBytes {w : Width} {v : Word} (h : v.toNat < 2 ^ w.bits) :
    littleEndianValue (wordBytes w v) = v.toNat := by
  have hvalue := littleEndianValue_bytesFrom v 0 w.bytes
  simp only [Nat.zero_add, Nat.mul_zero, pow_zero, Nat.div_one, ← width_bits_eq, Nat.mod_eq_of_lt h] at hvalue
  exact hvalue

/-- The W/8 bytes of the stream from byte `j * (W/8)` on are those of word `j`. -/
theorem take_drop_streamBytes (w : Width) {words : List Word} {j : Nat} (hj : j < words.length) :
    ((streamBytes w words).drop (j * w.bytes)).take w.bytes = wordBytes w (words.getD j 0) := by
  induction words generalizing j with
  | nil => exact absurd hj (Nat.not_lt_zero j)
  | cons v vs ih =>
    have hlength := wordBytes_length w v
    have hcons : streamBytes w (v :: vs) = wordBytes w v ++ streamBytes w vs := List.flatMap_cons
    cases j with
    | zero => rw [hcons, Nat.zero_mul, List.drop_zero, List.take_left' hlength, List.getD_cons_zero]
    | succ j =>
      rw [hcons, Nat.succ_mul, Nat.add_comm, ← List.drop_drop, List.drop_left' hlength, List.getD_cons_succ]
      exact ih (Nat.lt_of_succ_lt_succ hj)

/-! ## The bytes of one fill -/

/-- The bytes of a fill: the first LEN bytes of the stream of its words (R106). -/
def fillStream (cfg : Config) (len : Nat) (g : Gen) : List Byte :=
  (streamBytes cfg.width (runSteps cfg (stepsFor cfg len) g).2).take len

theorem fillBytes_gen (cfg : Config) (len : Nat) (g : Gen) :
    (fillBytes cfg len g).1 = (runSteps cfg (stepsFor cfg len) g).1 := rfl

theorem fillBytes_data (cfg : Config) (len : Nat) (g : Gen) :
    (fillBytes cfg len g).2 = packBytes (fillStream cfg len g) := rfl

/-- The steps of a fill give every byte it sends. -/
theorem length_fillStream (c : LegalConfig) (len : Nat) (g : Gen) : (fillStream c.params len g).length = len := by
  rw [fillStream, List.length_take, streamBytes_length, runSteps_length]
  exact Nat.min_eq_left (le_stepsFor_mul c len)

theorem take_unpackBytes_fillBytes (c : LegalConfig) (len : Nat) (g : Gen) :
    (unpackBytes (fillBytes c.params len g).2).take len = fillStream c.params len g := by
  have hpacked := take_unpackBytes_packBytes (fillStream c.params len g)
  rwa [length_fillStream, ← fillBytes_data] at hpacked

theorem div_bytes_lt_stepsFor (c : LegalConfig) {len i : Nat} (hi : i < len) :
    i / c.params.width.bytes < stepsFor c.params len :=
  Nat.div_lt_of_lt_mul (Nat.mul_comm _ _ ▸ hi.trans_le (le_stepsFor_mul c len))

/-- Byte `i` of the data beats, for `i` below LEN, is byte `i mod (W/8)` of word `i div (W/8)` (R105, R106). -/
theorem byteOf_fillBytes (c : LegalConfig) {len i : Nat} (hi : i < len) (g : Gen) :
    byteOf ((fillBytes c.params len g).2.getD (i / 8) 0) (i % 8) =
      byteOf ((runSteps c.params (stepsFor c.params len) g).2.getD (i / c.params.width.bytes) 0)
        (i % c.params.width.bytes) := by
  have hstream : i < (runSteps c.params (stepsFor c.params len) g).2.length * c.params.width.bytes := by
    rw [runSteps_length]
    exact hi.trans_le (le_stepsFor_mul c len)
  rw [fillBytes_data, byteOf_packBytes _ (hi.trans_eq (length_fillStream c len g).symm),
    ← streamBytes_getD c.params.width _ hstream]
  simp only [fillStream, List.getD_eq_getElem?_getD, List.getElem?_take_of_lt hi]

theorem byteOf_fillBytes_of_len_le (c : LegalConfig) {len i : Nat} (hi : len ≤ i) (g : Gen) :
    byteOf ((fillBytes c.params len g).2.getD (i / 8) 0) (i % 8) = 0 :=
  byteOf_packBytes_of_length_le ((length_fillStream c len g).trans_le hi)

/-- FILL on a seeded engine. -/
theorem exec_fill_of_seeded {s : State} {g : Gen} (hseeded : s.seeded = true) (hgen : s.gen = some g)
    (len : BitVec 32) :
    exec (.fill len) s = .next { s with
      gen := some (fillBytes s.cfg len.toNat g).1
      rq := s.rq ++ responseBeats .ok 0x05 (fillBytes s.cfg len.toNat g).2 } :=
  congrArg _ (whenSeeded_of_live (liveGen_of_seeded hseeded hgen))

/-- TRY_FILL on a seeded engine. -/
theorem exec_tryFill_of_seeded {s : State} {g : Gen} (hseeded : s.seeded = true) (hgen : s.gen = some g)
    (len : BitVec 32) :
    exec (.tryFill len) s = .next { s with
      gen := some (fillBytes s.cfg len.toNat g).1
      rq := s.rq ++ responseBeats .ok 0x06 (fillBytes s.cfg len.toNat g).2 } :=
  congrArg _ (whenSeeded_of_live (liveGen_of_seeded hseeded hgen))

/-- Settles O22: both commands run `fillBytes`, whose bytes are those of its words and 0 past LEN. -/
theorem fillAnswersTheByteStream : Obligations.FillAnswersTheByteStream := by
  intro s len w8 steps
  have hsteps : stepsFor s.cfg len.toNat = steps := rfl
  constructor
  · intro g hseeded hgen run
    refine ⟨(fillBytes s.cfg len.toNat g).2, fillBytes_length s.config len.toNat g, fun i hi => ⟨?_, ?_⟩,
      fun i hi _ => byteOf_fillBytes_of_len_le s.config hi g, exec_fill_of_seeded hseeded hgen len,
      exec_tryFill_of_seeded hseeded hgen len⟩
    · exact hsteps ▸ div_bytes_lt_stepsFor s.config hi
    · exact byteOf_fillBytes s.config hi g
  · intro hseeded
    have hunseeded := liveGen_of_unseeded hseeded
    exact ⟨congrArg _ (whenSeeded_of_unseeded hunseeded), congrArg _ (whenSeeded_of_unseeded hunseeded)⟩

/-! ## Two fills -/

theorem stepsFor_of_word {cfg : Config} (hword : cfg.fillGranularity = .word) (len : Nat) :
    stepsFor cfg len = ceilDiv len cfg.width.bytes := by
  rw [stepsFor, hword]

/-- `q` whole words take `q` steps, and what follows them takes its own. -/
theorem ceilDiv_mul_add {b : Nat} (hb : 0 < b) (q a : Nat) : ceilDiv (q * b + a) b = q + ceilDiv a b := by
  rw [ceilDiv, ceilDiv, Nat.add_assoc, Nat.mul_comm, Nat.mul_add_div hb]

theorem ceilDiv_mul_self {b : Nat} (hb : 0 < b) (q : Nat) : ceilDiv (q * b) b = q := by
  have hzero : ceilDiv 0 b = 0 := by
    rw [ceilDiv, Nat.zero_add]
    exact Nat.div_eq_of_lt (Nat.sub_one_lt_of_lt hb)
  rw [← Nat.add_zero (q * b), ceilDiv_mul_add hb, hzero, Nat.add_zero]

/-- Settles O23: the first fill ends on a word, so the second one's steps, and its bytes, follow on from there. -/
theorem successiveFillsContinueTheStream : Obligations.SuccessiveFillsContinueTheStream := by
  intro c g len1 len2 hword hwhole f1 f2 f
  have hbytes := width_bytes_pos c.params.width
  obtain ⟨q, rfl⟩ : ∃ q, len1 = q * c.params.width.bytes :=
    ⟨_, (Nat.div_mul_cancel (Nat.dvd_of_mod_eq_zero hwhole)).symm⟩
  have hfirst : stepsFor c.params (q * c.params.width.bytes) = q := by
    rw [stepsFor_of_word hword, ceilDiv_mul_self hbytes]
  have hboth : stepsFor c.params (q * c.params.width.bytes + len2) = q + stepsFor c.params len2 := by
    rw [stepsFor_of_word hword, stepsFor_of_word hword, ceilDiv_mul_add hbytes]
  have hlength : (streamBytes c.params.width (runSteps c.params q g).2).length = q * c.params.width.bytes := by
    rw [streamBytes_length, runSteps_length]
  constructor
  · simp only [f1, f2, f, fillBytes_gen, hfirst, hboth, runSteps_add]
  · simp only [f1, f2, f, take_unpackBytes_fillBytes, fillStream, fillBytes_gen, hfirst, hboth, runSteps_add,
      streamBytes_append]
    rw [← hlength, List.take_length, List.take_length_add_append]

/-! ## A fill and STEP commands -/

theorem lt_of_succ_mul_le {j b n k : Nat} (hb : 0 < b) (h : (j + 1) * b ≤ n) (hn : n ≤ k * b) : j < k :=
  Nat.le_of_mul_le_mul_right (h.trans hn) hb

theorem take_drop_congr {α : Type} {l m : List α} {n a k : Nat} (h : l.take n = m.take n) (hn : a + k ≤ n) :
    (l.drop a).take k = (m.drop a).take k := by
  have hcut : ∀ xs : List α, (xs.drop a).take k = ((xs.take n).drop a).take k := fun xs => by
    rw [List.drop_take, List.take_take, Nat.min_eq_left (by omega)]
  rw [hcut, h, ← hcut]

/-- Whole word `j` of a fill, read little-endian, is the word of step `j` (R114). -/
theorem littleEndianValue_fillBytes (c : LegalConfig) {len j : Nat} (hj : (j + 1) * c.params.width.bytes ≤ len)
    (g : Gen) :
    littleEndianValue (((unpackBytes (fillBytes c.params len g).2).drop (j * c.params.width.bytes)).take
        c.params.width.bytes) = (stepFn c.params (runSteps c.params j g).1).word.toNat := by
  have hstep : j < stepsFor c.params len :=
    lt_of_succ_mul_le (width_bytes_pos _) hj (le_stepsFor_mul c len)
  rw [take_drop_congr (take_unpackBytes_fillBytes c len g) (Nat.succ_mul j _ ▸ hj),
    take_drop_streamBytes c.params.width ((runSteps_length c.params _ g).symm ▸ hstep), runSteps_getD hstep,
    littleEndianValue_wordBytes (stepFn_word_lt c.params _)]

/-- Settles O24: word `j` of either is the word of the step from the state after `j` steps, and with WORD both take
as many steps. -/
theorem fillAgreesWithStepWords : Obligations.FillAgreesWithStepWords := by
  intro s g len hseeded hgen w8 k
  have hbytes : 0 < w8 := width_bytes_pos _
  refine ⟨_, (runSteps s.cfg k g).2, _, _, exec_fill_of_seeded hseeded hgen len, rfl,
    execAll_replicate_step k hseeded hgen, runSteps_length _ _ g, rfl, fun j hj => ?_, fun hword => ?_⟩
  · have hstep : j < k := lt_of_succ_mul_le hbytes hj (le_ceilDiv_mul len.toNat hbytes)
    rw [runSteps_getD hstep]
    exact littleEndianValue_fillBytes s.config hj g
  · have hsteps : stepsFor s.cfg len.toNat = k := stepsFor_of_word hword len.toNat
    simp only [fillBytes_gen, hsteps]

end Sys2Proof.Machine
end

section
/-! PROOFS. State transfer (43_state_io.md R115 to R118): the whole state that LOAD_STATE and STORE_STATE leave, and
the stream of commands after a state has been moved to another engine. A command looks at nothing that the channels
hold, so the two engines answer alike. -/

namespace Sys2Proof.Machine

/-! ## LOAD_STATE and STORE_STATE -/

/-- LOAD_STATE with the lanes and the carry of a fitting state. -/
theorem exec_loadState_of_fits {s : State} {g : Gen} (h : g.fits s.cfg = true) :
    exec (.loadState g.lanes g.carry) s = .next { s with
      gen := some g
      seeded := true
      rq := s.rq ++ responseBeats .ok 0x20 [] } := by
  have hexec : exec (.loadState g.lanes g.carry) s = .next { s with
      gen := some (loadGen s.cfg g.lanes g.carry)
      seeded := true
      rq := s.rq ++ responseBeats .ok 0x20 [] } := rfl
  rw [hexec, loadGen_of_fits h]

/-- Settles O28: operands of the instance's count and width are a fitting state. -/
theorem loadStateWritesVerbatim : Obligations.LoadStateWritesVerbatim := by
  intro s lanes carry hlength hlanes hcarry
  have hfits : (⟨lanes, carry⟩ : Gen).fits s.cfg = true :=
    (Gen.fits_iff _ _).2 ⟨hlength, fun x hx => (fits_iff _ _).1 (hlanes x hx), (fits_iff _ _).1 hcarry⟩
  exact exec_loadState_of_fits hfits

/-- STORE_STATE on a seeded engine. -/
theorem exec_storeState_of_seeded {s : State} {g : Gen} (hseeded : s.seeded = true) (hgen : s.gen = some g) :
    exec .storeState s = .next { s with rq := s.rq ++ responseBeats .ok 0x21 (storeBeats g) } := by
  have hlive := whenSeeded_of_live (opc := .storeState) (f := fun g => (g, storeBeats g))
    (liveGen_of_seeded hseeded hgen)
  rw [← hgen] at hlive
  exact congrArg _ hlive

theorem exec_storeState_of_unseeded {s : State} (hseeded : s.seeded = false) :
    exec .storeState s = .next { s with rq := s.rq ++ responseBeats .errUnseeded 0x21 [] } :=
  congrArg _ (whenSeeded_of_unseeded (liveGen_of_unseeded hseeded))

/-- Settles O29: the two answers behind the SEEDED check. -/
theorem storeStateReadsOut : Obligations.StoreStateReadsOut := fun _ =>
  ⟨fun _ hseeded hgen => exec_storeState_of_seeded hseeded hgen, exec_storeState_of_unseeded⟩

theorem headerBeat_loadState : headerBeat .loadState 0 = 0x20 := by decide

/-- The data beats of STORE_STATE behind the header 0x20 are a LOAD_STATE of the same lanes and carry. -/
theorem decode_storeBeats {c : LegalConfig} {g : Gen} (h : g.fits c.params = true) :
    decode c.params (0x20 :: storeBeats g) = .ok (.loadState g.lanes g.carry) := by
  rw [← headerBeat_loadState]
  exact decodeOfEncodeIsTheCommand c (.loadState g.lanes g.carry) h

/-! ## One engine on the channels of another -/

/-- The engine of `s` with what the host has sent, received and has still to do in `v`, and the RQ of `v`. -/
def State.withChannelsOf (s v : State) : State :=
  { s with rq := v.rq, script := v.script, sent := v.sent, received := v.received }

/-- Two states that agree on the engine differ in their channels only. -/
theorem State.eq_withChannelsOf {s u : State} (hconfig : u.config = s.config) (hgen : u.gen = s.gen)
    (hseeded : u.seeded = s.seeded) (hfault : u.fault = s.fault) (hdec : u.dec = s.dec) (hseq : u.seq = s.seq) :
    u = s.withChannelsOf u := by
  simp only [State.withChannelsOf, ← hconfig, ← hgen, ← hseeded, ← hfault, ← hdec, ← hseq]

/-- What leads from `s` to `t` ends, on the channels of `v`, in `outcome`: the same engine, after the same responses. -/
def AnswersAlike (s t v : State) (outcome : Host.Outcome State Fault Refusal) : Prop :=
  ∃ rs, t.rq = s.rq ++ rs ∧ outcome = .next (t.withChannelsOf { v with rq := v.rq ++ rs })

theorem whenSeeded_answersAlike (opc : Opcode) (f : Gen → Gen × List Beat) (s v : State) :
    AnswersAlike s (whenSeeded opc f s) v (.next (whenSeeded opc f (s.withChannelsOf v))) := by
  rcases whenSeeded_cases opc f s with ⟨hlive, h⟩ | ⟨g, hlive, h⟩ <;> rw [h]
  · rw [whenSeeded_of_unseeded (s := s.withChannelsOf v) hlive]
    exact ⟨_, rfl, rfl⟩
  · rw [whenSeeded_of_live (s := s.withChannelsOf v) hlive]
    exact ⟨_, rfl, rfl⟩

theorem seedWith_answersAlike (opc : Opcode) (g : Gen) (s v : State) :
    AnswersAlike s (seedWith opc g s) v (.next (seedWith opc g (s.withChannelsOf v))) := by
  by_cases hlag : s.cfg.lag = 3
  · rw [seedWith_of_lag hlag, seedWith_of_lag (s := s.withChannelsOf v) hlag]
    exact ⟨_, rfl, rfl⟩
  · rw [seedWith_of_not_lag hlag, seedWith_of_not_lag (s := s.withChannelsOf v) hlag]
    exact ⟨_, rfl, rfl⟩

/-- A command's effect and its response do not depend on the channels. -/
theorem exec_answersAlike {i : Instr} {s t : State} (h : exec i s = .next t) (v : State) :
    AnswersAlike s t v (exec i (s.withChannelsOf v)) := by
  cases i <;> cases h
  case step => exact whenSeeded_answersAlike _ _ s v
  case batch => exact whenSeeded_answersAlike _ _ s v
  case nextU32 => exact whenSeeded_answersAlike _ _ s v
  case nextU64 => exact whenSeeded_answersAlike _ _ s v
  case fill len => exact whenSeeded_answersAlike _ _ s v
  case tryFill len => exact whenSeeded_answersAlike _ _ s v
  case seedKeys k1 k2 => exact seedWith_answersAlike _ _ s v
  case seedBytes bytes => exact seedWith_answersAlike _ _ s v
  case loadState lanes carry => exact ⟨_, rfl, rfl⟩
  case storeState => exact whenSeeded_answersAlike _ _ s v
  case readStatus => exact ⟨_, rfl, rfl⟩
  case readConfig => exact ⟨_, rfl, rfl⟩

/-- Every command sequence completes, and its effect and its responses do not depend on the channels: the responses of
the first command, then those of the others. -/
theorem execAll_answersAlike (is : List Instr) (s v : State) :
    ∃ t, execAll is s = .next t ∧ AnswersAlike s t v (execAll is (s.withChannelsOf v)) := by
  induction is generalizing s v with
  | nil => exact ⟨s, rfl, [], (List.append_nil _).symm, by simp only [List.append_nil]; rfl⟩
  | cons i is ih =>
    obtain ⟨u, hu, -⟩ := exec_answers i s
    obtain ⟨first, hfirst, hexec⟩ := exec_answersAlike hu v
    obtain ⟨t, ht, others, hothers, hall⟩ := ih u { v with rq := v.rq ++ first }
    refine ⟨t, (execAll_cons_of_next hu).trans ht, first ++ others, ?_, ?_⟩
    · rw [hothers, hfirst, List.append_assoc]
    · rw [execAll_cons_of_next hexec, hall, List.append_assoc]

/-! ## A stored state in another engine -/

/-- Loading the lanes and the carry of a seeded engine into one with the same configuration, FAULT, DEC and SEQ makes
it that engine, on channels of its own. -/
theorem exec_loadState_withChannelsOf {s u : State} {g : Gen} (hfits : g.fits s.cfg = true) (hseeded : s.seeded = true)
    (hgen : s.gen = some g) (hconfig : u.config = s.config) (hfault : u.fault = s.fault) (hdec : u.dec = s.dec)
    (hseq : u.seq = s.seq) :
    exec (.loadState g.lanes g.carry) u =
      .next (s.withChannelsOf { u with rq := u.rq ++ responseBeats .ok 0x20 [] }) := by
  have hfitsu : g.fits u.cfg = true := (congrArg (fun c => g.fits c.params) hconfig).trans hfits
  rw [exec_loadState_of_fits hfitsu]
  exact congrArg _ (State.eq_withChannelsOf hconfig hgen.symm hseeded.symm hfault hdec hseq)

/-- Settles O30: the stored lanes and carry fit, so the load makes the second engine the first one on channels of its
own, and there every command sequence answers the same (`execAll_answersAlike`). -/
theorem storedStateResumesTheStream : Obligations.StoredStateResumesTheStream := by
  intro s u g is hs hseeded hgen hconfig hfault hdec hseq
  obtain ⟨hgenFits, -⟩ := (State.coherent_iff s).1 hs
  have hfits : g.fits s.cfg = true := (State.genFits_iff s).1 hgenFits g hgen
  have hdecode : decode u.cfg (0x20 :: storeBeats g) = .ok (.loadState g.lanes g.carry) := by
    rw [State.cfg, hconfig]
    exact decode_storeBeats hfits
  have hload := exec_loadState_withChannelsOf hfits hseeded hgen hconfig hfault hdec hseq
  obtain ⟨t, ht, rs, hrs, hall⟩ := execAll_answersAlike is s { u with rq := u.rq ++ responseBeats .ok 0x20 [] }
  exact ⟨_, _, t, _, storeBeats g, _, rs, exec_storeState_of_seeded hseeded hgen, rfl, hdecode, hload, ht, hall, hrs,
    rfl, rfl, rfl, rfl, rfl, rfl⟩

end Sys2Proof.Machine
end

section
/-! PROOFS. The error responses (60_exceptions.md R123 to R125): ERR_UNSEEDED of the commands behind the SEEDED check,
ERR_ILLEGAL of a header, and ERR_FAULTED of every beat but READ_STATUS while FAULT is 1. -/

namespace Sys2Proof.Machine

/-! ## SEEDED is 0 -/

/-- Whether the opcode uses the lanes or the carry, and so stands behind the SEEDED check (60_exceptions.md R125). -/
def needsSeeded : Opcode → Bool
  | .step | .batch | .nextU32 | .nextU64 | .fill | .tryFill | .storeState => true
  | .seedKeys | .seedBytes | .loadState | .readStatus | .readConfig => false

theorem mem_seededOpcodes_iff (o : Opcode) :
    o ∈ ([.step, .batch, .nextU32, .nextU64, .fill, .tryFill, .storeState] : List Opcode) ↔
      needsSeeded o = true := by
  cases o <;> decide

theorem payloadBeats_of_needsSeeded {o : Opcode} (h : needsSeeded o = true) (cfg : Config) :
    o.payloadBeats cfg = 0 := by
  cases o with
  | seedKeys | seedBytes | loadState => cases h
  | _ => rfl

theorem exec_of_unseeded {i : Instr} {s : State} (hneeds : needsSeeded i.opcode = true)
    (hseeded : s.seeded = false) : exec i s = .next (s.raiseUnseeded i.opcode) := by
  cases i with
  | seedKeys | seedBytes | loadState | readStatus | readConfig => cases hneeds
  | _ => exact congrArg Host.Outcome.next (whenSeeded_of_unseeded (liveGen_of_unseeded hseeded))

/-- The commands without the SEEDED check answer OK in every state; being well-formed gives the seed commands their
L = 3 (30_encoding.md R61). -/
theorem exec_ok_of_not_needsSeeded {i : Instr} {s : State} (hneeds : needsSeeded i.opcode = false)
    (hwf : i.wellFormed s.cfg = true) :
    ∃ t data, exec i s = .next t ∧ t.rq = s.rq ++ responseBeats .ok i.opcode.code data := by
  cases i with
  | seedKeys | seedBytes =>
    exact ⟨_, _, congrArg Host.Outcome.next (seedWith_of_lag (lag_of_wellFormed_seed hwf rfl)), rfl⟩
  | loadState | readStatus | readConfig => exact ⟨_, _, rfl, rfl⟩
  | _ => cases hneeds

/-- Settles O33: the seven opcodes of the list are those behind the SEEDED check. -/
theorem unseededCommandsAreRefused : Obligations.UnseededCommandsAreRefused := by
  intro s i hseeded
  split
  case isTrue hmem =>
    have hneeds := (mem_seededOpcodes_iff i.opcode).1 hmem
    exact ⟨payloadBeats_of_needsSeeded hneeds s.cfg, exec_of_unseeded hneeds hseeded⟩
  case isFalse hmem =>
    exact exec_ok_of_not_needsSeeded (Bool.eq_false_iff.2 (mt (mem_seededOpcodes_iff i.opcode).2 hmem))

/-! ## An illegal header -/

theorem onBeat_of_illegal_header {s : State} {v : Beat} {e : DecodeError} (hfault : s.fault = false)
    (hdec : s.dec = .idle) (hheader : decodeHeader s.cfg v = .error e) :
    onBeat v s = .next (s.raiseIllegal (headerOpc v)) := by
  simp [onBeat, hfault, hdec, hheader]

/-- Settles O34: a header that stands for no opcode is refused for some reason, and every reason raises the same
error. -/
theorem illegalHeaderSetsFault : Obligations.IllegalHeaderSetsFault := by
  intro s v rest hfault hdec hseq hscript hillegal
  rw [step_of_send hscript hseq]
  cases hheader : decodeHeader s.cfg v with
  | ok opc => exact absurd hheader (hillegal opc)
  | error e => exact onBeat_of_illegal_header hfault hdec hheader

/-! ## FAULT is 1 -/

theorem statusRegister_of_fault {s : State} (hfault : s.fault = true) :
    statusRegister s = BitVec.ofNat 64 (s.seeded.toNat + 2) := by
  rw [statusRegister_eq, hfault]
  rfl

theorem onBeat_status_of_fault {s : State} (hfault : s.fault = true) :
    onBeat 0x30 s = .next (s.respond .ok 0x30 [BitVec.ofNat 64 (s.seeded.toNat + 2)]) := by
  have hexec : onBeat 0x30 s = exec .readStatus s := by simp [onBeat, hfault]
  rw [hexec, ← statusRegister_of_fault hfault]
  rfl

theorem onBeat_other_of_fault {s : State} {v : Beat} (hfault : s.fault = true) (hv : v ≠ 0x30) :
    onBeat v s = .next (s.raiseFaulted (headerOpc v)) := by
  simp only [onBeat, hfault, if_true, if_neg hv]

/-- Settles O35: the beat is taken whatever DEC is, and 0x30 alone is performed. -/
theorem faultedEngineAnswersEveryBeat : Obligations.FaultedEngineAnswersEveryBeat := by
  intro s v rest hfault hseq hscript
  rw [step_of_send hscript hseq]
  split
  case isTrue hv =>
    subst hv
    exact onBeat_status_of_fault hfault
  case isFalse hv => exact onBeat_other_of_fault hfault hv

end Sys2Proof.Machine
end

section
/-! PROOFS. The beats that decode to a command are performed as it (60_exceptions.md R126), and so is a command that
is placed on the channel with all its beats but the last one taken (log 9). -/

namespace Sys2Proof.Machine

/-! ## Beats that are a command -/

/-- The opcode map has each value once (30_encoding.md R62). -/
theorem code_injective : Function.Injective Opcode.code := fun o p h => by
  rw [← Option.some_inj, ← ofCode_code o, h, ofCode_code]

/-- A lone beat that is a command is a header without payload. -/
theorem onBeat_of_decode_header {s : State} {v : Beat} {i : Instr} (hfault : s.fault = false) (hdec : s.dec = .idle)
    (hdecode : decode s.cfg [v] = .ok i) : onBeat v s = exec i s := by
  obtain ⟨h, payload, opc, hbeats, hheader, hlength, rfl⟩ := decode_ok hdecode
  obtain ⟨rfl, rfl⟩ := List.cons.inj hbeats
  exact onBeat_of_command_header hfault hdec hheader hlength.symm

/-- DEC keeps the opcode of the header alone: that is enough, since LEN is 0 in a header with payload. -/
theorem onBeat_of_decode_payload {s : State} {v : Beat} {opc : Opcode} {buf : List Beat} {i : Instr}
    (hfault : s.fault = false) (hdec : s.dec = .collect opc 1 buf)
    (hdecode : decode s.cfg (headerBeat opc 0 :: (buf ++ [v])) = .ok i) :
    onBeat v s = exec i { s with dec := .idle } := by
  obtain ⟨h, payload, o, hbeats, hheader, -, rfl⟩ := decode_ok hdecode
  obtain ⟨rfl, rfl⟩ := List.cons.inj hbeats
  obtain ⟨hopc, -⟩ := (decodeHeader_ok_iff _ _ _).1 hheader
  obtain rfl : opc = o := code_injective ((headerOpc_headerBeat opc 0).symm.trans hopc)
  rw [headerLen_headerBeat]
  exact onBeat_of_payload_complete hfault hdec

/-- Settles O39: the beat is taken, and with the beats before it it is the command. -/
theorem stepRunsTheDecodedCommand : Obligations.StepRunsTheDecodedCommand := by
  intro s v rest i hfault hseq hscript
  rw [step_of_send hscript hseq]
  exact ⟨fun hdec hdecode => onBeat_of_decode_header hfault hdec hdecode,
    fun opc buf hdec hdecode => onBeat_of_decode_payload hfault hdec hdecode⟩

/-! ## A placed command -/

theorem placeBeats_header (s : State) (h : Beat) :
    placeBeats s [h] = { s with dec := .idle, seq := .idle, script := .send h :: s.script } := rfl

theorem placeBeats_payload {s : State} {h : Beat} {opc : Opcode} (hheader : decodeHeader s.cfg h = .ok opc)
    (buf : List Beat) (v : Beat) :
    placeBeats s (h :: (buf ++ [v])) =
      { s with dec := .collect opc 1 buf, seq := .idle, script := .send v :: s.script } := by
  simp only [placeBeats, hheader, List.getLast?_concat, List.dropLast_concat]

/-- A header with payload has LEN 0, so it is the one that DEC's opcode stands for. -/
theorem header_eq_of_payloadBeats {cfg : Config} {h : Beat} {opc : Opcode} (hheader : decodeHeader cfg h = .ok opc)
    (hpayload : 0 < opc.payloadBeats cfg) : h = headerBeat opc 0 := by
  obtain ⟨hbeat, hlen, -⟩ := decodeHeader_ok hheader
  rw [← hlen (takesLen_of_payloadBeats hpayload), hbeat]

/-- The beats of a command, placed on the channel, are run by the next step, which takes the last of them. -/
theorem step_placeBeats {s : State} {beats : List Beat} {i : Instr} (hfault : s.fault = false)
    (hdecode : decode s.cfg beats = .ok i) :
    ∃ v, step (placeBeats s beats) = exec i { s with dec := .idle, seq := .idle, sent := s.sent ++ [v] } := by
  obtain ⟨h, payload, opc, rfl, hheader, hlength, -⟩ := decode_ok hdecode
  rcases List.eq_nil_or_concat payload with rfl | ⟨buf, v, rfl⟩
  · rw [placeBeats_header]
    obtain ⟨hrun, -⟩ := stepRunsTheDecodedCommand
      { s with dec := .idle, seq := .idle, script := .send h :: s.script } h s.script i hfault rfl rfl
    exact ⟨h, hrun rfl hdecode⟩
  · rw [List.concat_eq_append] at hdecode hlength ⊢
    have hpayload : 0 < opc.payloadBeats s.cfg := by simp [← hlength]
    rw [placeBeats_payload hheader]
    rw [header_eq_of_payloadBeats hheader hpayload] at hdecode
    obtain ⟨-, hrun⟩ := stepRunsTheDecodedCommand
      { s with dec := .collect opc 1 buf, seq := .idle, script := .send v :: s.script } v s.script i hfault rfl rfl
    exact ⟨v, hrun opc buf rfl hdecode⟩

/-- Settles O40: the beats of a table word are placed as the beats of any command (`step_placeBeats`). -/
theorem placedTableWordIsRunNext : Obligations.PlacedTableWordIsRunNext := fun _ _ _ _ hfault hdecode =>
  step_placeBeats hfault hdecode

end Sys2Proof.Machine
end

section
/-! PROOFS. Reset in any state, and the end of a run with what is observed of it (70_reset_and_hazards.md R139, R143,
R151). -/

namespace Sys2Proof.Machine

/-! ## Reset -/

/-- Settles O43: the step is `resetEngine` behind the move, and `resetEngine` writes neither CB nor RB. -/
theorem resetClearsTheEngine : Obligations.ResetClearsTheEngine := fun _ _ hscript =>
  step_of_reset hscript

/-! ## The end of a run -/

theorem HostMove.isSend_iff (m : HostMove) : m.isSend = true ↔ ∃ v, m = .send v := by
  cases m <;> simp [HostMove.isSend]

theorem any_isSend_eq_false_iff (moves : List HostMove) :
    moves.any HostMove.isSend = false ↔ ∀ v, HostMove.send v ∉ moves := by
  simp only [List.any_eq_false, HostMove.isSend_iff]
  exact ⟨fun h v hv => h _ hv ⟨v, rfl⟩, fun h m hm ⟨v, hv⟩ => h v (hv ▸ hm)⟩

theorem State.atBoundary_iff (s : State) : s.atBoundary = true ↔ s.dec = .idle ∧ s.seq = .idle := by
  simp [State.atBoundary]

theorem State.runOver_iff (s : State) :
    s.runOver = true ↔ (∀ v, HostMove.send v ∉ s.script) ∧ s.dec = .idle ∧ s.seq = .idle ∧ s.rq = [] := by
  simp only [State.runOver, Bool.and_eq_true, Bool.not_eq_true', any_isSend_eq_false_iff, State.atBoundary_iff,
    List.isEmpty_iff, and_assoc]

/-- When a run is over the only step left but a reset is an accept, which finds RQ empty and moves no beat
(20_memory.md R37). -/
theorem step_of_runOver {s t : State} (hover : s.runOver = true) (hnot : s.script.head? ≠ some .reset)
    (h : step s = .next t) : ∃ rest, s.script = .accept :: rest ∧ t = { s with script := rest } := by
  obtain ⟨hsend, -, hseq, hrq⟩ := s.runOver_iff.1 hover
  rcases step_cases s with ⟨rest, hscript, -⟩ | ⟨rest, hscript, hstep⟩ | ⟨v, rest, hscript, -, -⟩ | ⟨-, hprime, -⟩
    | ⟨-, -, hstep⟩
  · exact absurd (congrArg List.head? hscript) hnot
  · cases hstep.symm.trans h
    exact ⟨rest, hscript, State.acceptBeat_of_nil hrq⟩
  · exact absurd (hscript ▸ List.mem_cons_self) (hsend v)
  · exact absurd hseq hprime
  · cases hstep.symm.trans h

/-- Dropping a move of the host from the script does not resume a run that is over. -/
theorem State.runOver_of_tail {s : State} {m : HostMove} {rest : List HostMove} (hover : s.runOver = true)
    (hscript : s.script = m :: rest) : ({ s with script := rest } : State).runOver = true := by
  obtain ⟨hsend, hidle⟩ := s.runOver_iff.1 hover
  exact (State.runOver_iff _).2 ⟨fun v hv => hsend v (hscript ▸ List.mem_cons_of_mem m hv), hidle⟩

/-- Settles O55: the clauses are `runOver_iff`, and the step left in a run that is over changes the script alone, of
which the observation holds nothing. -/
theorem runsEndWithTheirObservation : Obligations.RunsEndWithTheirObservation := by
  intro s
  refine ⟨s.runOver_iff, rfl, rfl, rfl, rfl, fun t hover hnot h => ?_⟩
  obtain ⟨rest, hscript, rfl⟩ := step_of_runOver hover hnot h
  exact ⟨State.runOver_of_tail hover hscript, rfl⟩

end Sys2Proof.Machine
end
